-- ==== Sys2Proof/Word.lean ====
section
/-! DEFINITION. The word types of the Frame codec: u8, u16 and the 24-bit command word (spec/00_scope.md R10). -/

namespace Sys2Proof

/-- `u8`: a wire byte, a buffer byte, a checksum (R10). -/
abbrev Byte := BitVec 8

/-- `u16`: a length, a count, a buffer index, a register value (R10, R66). -/
abbrev Half := BitVec 16

/-- `u24`: one command word, `OP = [23:16]`, `IMM = [15:0]` (spec/30_encoding.md R90). -/
abbrev CmdWord := BitVec 24

end Sys2Proof
end

