-- ==== Sys2Proof/Syntax.lean ====
section
/-! DEFINITION. The instruction set: one constructor per row of spec/opcode_table.json. Every operand is an
unsigned immediate of the width its format gives (spec/30_encoding.md R91, R92), so an operand out of range cannot
be written. -/

namespace Sys2Proof

/-- The eleven commands of the opcode map (R93). -/
inductive Instr where
  /-- `NOP` (R190). -/
  | nop
  /-- `ENC_START n`: begin a frame for an `n`-byte buffer (R141). -/
  | encStart (n : Half)
  /-- `ENC_BYTE b`: the next buffer byte (R142). -/
  | encByte (b : Byte)
  /-- `ENC_ABORT`: abandon the frame in progress (R143). -/
  | encAbort
  /-- `DEC_START`: arm the decoder for one frame (R171). -/
  | decStart
  /-- `DEC_BYTE w`: feed one wire byte to the decoder (R172). -/
  | decByte (w : Byte)
  /-- `DEC_ABORT`: report a transport timeout (R173). -/
  | decAbort
  /-- `RD_REG r`: read state register number `r` into RSP (R192). -/
  | rdReg (r : Byte)
  /-- `RD_BUF i`: read entry `i` of the decoded buffer into RSP (R193). -/
  | rdBuf (i : Half)
  /-- `CLR_STATUS`: clear the sticky flags (R194). -/
  | clrStatus
  /-- `RESET`: soft reset (R195). -/
  | reset
  deriving DecidableEq, Repr

end Sys2Proof
end

