-- ==== Sys2Proof/WellFormed.lean ====
section
/-! DEFINITION. Formats, and which commands are well formed. An `Instr` cannot be ill formed (its operands have their
widths), so the checks stand on a command as it is WRITTEN: an opcode with a format and an operand of any size, which
"an assembler must refuse" when it is out of range (spec/30_encoding.md R97). -/

namespace Sys2Proof

/-- The three formats (R91). -/
inductive Format where
  | f0
  | f8
  | f16
  deriving DecidableEq, Repr

/-- How many operand values a format has, for the two that take one (R92). -/
def Format.operandBound : Format → Option Nat
  | .f0 => none
  | .f8 => some 256
  | .f16 => some 65536

/-- A command as written: opcode, format and the operand, if any, as a number. -/
structure Command where
  op : Byte
  format : Format
  operand : Option Nat
  deriving DecidableEq, Repr

/-- F0 takes no operand; F8 and F16 take exactly one, within the operand's width (R91, R92, R97). -/
def Command.wellFormed (c : Command) : Bool :=
  match c.format.operandBound, c.operand with
  | none, none => true
  | some bound, some v => v < bound
  | _, _ => false

/-- The opcode of an instruction (R93). -/
def Instr.op : Instr → Byte
  | .nop => 0x00
  | .encStart _ => 0x01
  | .encByte _ => 0x02
  | .encAbort => 0x03
  | .decStart => 0x11
  | .decByte _ => 0x12
  | .decAbort => 0x13
  | .rdReg _ => 0x20
  | .rdBuf _ => 0x21
  | .clrStatus => 0x30
  | .reset => 0x3F

/-- The format of an instruction (R93). -/
def Instr.format : Instr → Format
  | .nop => .f0
  | .encStart _ => .f16
  | .encByte _ => .f8
  | .encAbort => .f0
  | .decStart => .f0
  | .decByte _ => .f8
  | .decAbort => .f0
  | .rdReg _ => .f8
  | .rdBuf _ => .f16
  | .clrStatus => .f0
  | .reset => .f0

/-- The operand of an instruction, as a number (R92). -/
def Instr.operand : Instr → Option Nat
  | .nop => none
  | .encStart n => some n.toNat
  | .encByte b => some b.toNat
  | .encAbort => none
  | .decStart => none
  | .decByte w => some w.toNat
  | .decAbort => none
  | .rdReg r => some r.toNat
  | .rdBuf i => some i.toNat
  | .clrStatus => none
  | .reset => none

/-- The command an instruction is written as. -/
def Instr.toCommand (i : Instr) : Command := ⟨i.op, i.format, i.operand⟩

/-- An instruction is well formed when the command it is written as is. -/
def Instr.wellFormed (i : Instr) : Bool := i.toCommand.wellFormed

/-- The encoder's commands (spec/10_state.md R45). -/
def Instr.isEncoderCommand : Instr → Bool
  | .nop => false
  | .encStart _ => true
  | .encByte _ => true
  | .encAbort => true
  | .decStart => false
  | .decByte _ => false
  | .decAbort => false
  | .rdReg _ => false
  | .rdBuf _ => false
  | .clrStatus => false
  | .reset => false

/-- The decoder's commands (spec/10_state.md R45). -/
def Instr.isDecoderCommand : Instr → Bool
  | .nop => false
  | .encStart _ => false
  | .encByte _ => false
  | .encAbort => false
  | .decStart => true
  | .decByte _ => true
  | .decAbort => true
  | .rdReg _ => false
  | .rdBuf _ => false
  | .clrStatus => false
  | .reset => false

end Sys2Proof
end

