-- ==== Sys2Proof/Decode.lean ====
section
/-! DEFINITION. Decoding and encoding of command words (spec/30_encoding.md Part B). -/

namespace Sys2Proof

/-- Why a word is no command (R94). Both kinds have the same effect: ILLEGAL (R212). -/
inductive IllegalWord where
  /-- `OP` is none of the eleven of R93. -/
  | reservedOpcode (op : Byte)
  /-- A defined `OP` with a nonzero must-be-zero bit in `IMM` (R91). -/
  | mustBeZero (op : Byte)
  deriving DecidableEq, Repr

/-- `OP = cmd[23:16]` (R90). -/
def opField (w : CmdWord) : Byte := w.extractLsb' 16 8

/-- `IMM = cmd[15:0]` (R90). -/
def immField (w : CmdWord) : Half := w.extractLsb' 0 16

/-- `IMM[15:8]`, which F8 wants zero (R91). -/
def immHigh (w : CmdWord) : Byte := w.extractLsb' 8 8

/-- `IMM[7:0]`, the operand of F8 (R91). -/
def immLow (w : CmdWord) : Byte := w.extractLsb' 0 8

/-- A word of format F0: all of `IMM` must be zero (R91). -/
def decodeF0 (i : Instr) (w : CmdWord) : Except IllegalWord Instr :=
  if immField w = 0 then .ok i else .error (.mustBeZero (opField w))

/-- A word of format F8: the upper half of `IMM` must be zero (R91). -/
def decodeF8 (f : Byte → Instr) (w : CmdWord) : Except IllegalWord Instr :=
  if immHigh w = 0 then .ok (f (immLow w)) else .error (.mustBeZero (opField w))

/-- A word of format F16: every `IMM` is an operand (R91). -/
def decodeF16 (f : Half → Instr) (w : CmdWord) : Except IllegalWord Instr :=
  .ok (f (immField w))

/-- `DecodeCmd`, total on every u24 (R95). -/
def decode (w : CmdWord) : Except IllegalWord Instr :=
  match opField w with
  | 0x00#8 => decodeF0 .nop w
  | 0x01#8 => decodeF16 .encStart w
  | 0x02#8 => decodeF8 .encByte w
  | 0x03#8 => decodeF0 .encAbort w
  | 0x11#8 => decodeF0 .decStart w
  | 0x12#8 => decodeF8 .decByte w
  | 0x13#8 => decodeF0 .decAbort w
  | 0x20#8 => decodeF8 .rdReg w
  | 0x21#8 => decodeF16 .rdBuf w
  | 0x30#8 => decodeF0 .clrStatus w
  | 0x3F#8 => decodeF0 .reset w
  | op => .error (.reservedOpcode op)

/-- The decoder on a word numbered as spec/opcode_table.json numbers it: bit 0 of `w` is bit 0 of the command word.
A word is exactly 24 bits (R96); bits the table does not give are zero. -/
def decodeTableWord (nbits w : Nat) : Option Instr :=
  let v := w % 2 ^ nbits
  if v < 2 ^ 24 then (decode (BitVec.ofNat 24 v)).toOption else none

/-- `IMM` of an instruction: zero for F0, the operand zero-extended for F8, the operand for F16 (R91, R92). -/
def Instr.imm : Instr → Half
  | .nop => 0
  | .encStart n => n
  | .encByte b => 0#8 ++ b
  | .encAbort => 0
  | .decStart => 0
  | .decByte w => 0#8 ++ w
  | .decAbort => 0
  | .rdReg r => 0#8 ++ r
  | .rdBuf i => i
  | .clrStatus => 0
  | .reset => 0

/-- The word of an instruction: `OP` above `IMM` (R90, R97). -/
def encode (i : Instr) : CmdWord := i.op ++ i.imm

/-- The `match` value of an instruction's row of spec/opcode_table.json. -/
def Instr.tableMatch : Instr → CmdWord
  | .nop => 0x000000
  | .encStart _ => 0x010000
  | .encByte _ => 0x020000
  | .encAbort => 0x030000
  | .decStart => 0x110000
  | .decByte _ => 0x120000
  | .decAbort => 0x130000
  | .rdReg _ => 0x200000
  | .rdBuf _ => 0x210000
  | .clrStatus => 0x300000
  | .reset => 0x3F0000

/-- The `mask` value of an instruction's row of spec/opcode_table.json. -/
def Instr.tableMask : Instr → CmdWord
  | .nop => 0xFFFFFF
  | .encStart _ => 0xFF0000
  | .encByte _ => 0xFFFF00
  | .encAbort => 0xFFFFFF
  | .decStart => 0xFFFFFF
  | .decByte _ => 0xFFFF00
  | .decAbort => 0xFFFFFF
  | .rdReg _ => 0xFFFF00
  | .rdBuf _ => 0xFF0000
  | .clrStatus => 0xFFFFFF
  | .reset => 0xFFFFFF

end Sys2Proof
end

