-- ==== Sys2Proof/Config.lean ====
section
/-! DEFINITION. What an instance of the block fixes (spec/00_scope.md R7) and the free values the spec leaves open. -/

namespace Sys2Proof

/-- The two OPEN parameters of an instance: the frame marker's bytes (R7). `markerHi` is sent first and is the
byte value that is escaped (spec/20_memory.md R64). -/
structure Params where
  markerHi : Byte
  markerLo : Byte
  deriving DecidableEq, Repr

/-- The one constraint on the parameters: `MARKER_HI ≠ 0x00`; `MARKER_LO` is unconstrained (R7). -/
abbrev Params.Legal (p : Params) : Prop := p.markerHi ≠ 0x00#8

namespace Config

/-- `ESC_FILL`, the filler byte (R7). -/
def escFill : Byte := 0x00

/-- `BUF_MAX`: the largest encodable buffer, and the number of entries of `DEC_BUF` (R7). -/
def bufMax : Nat := 65534

/-- Which of the 255 nonzero bytes `MARKER_HI` is. The spec gives no value (R7, 92_eei_decisions.md D2), so it has
no body. DESIGN CHOICE (safe), log entry 1. -/
opaque markerHiIndex : Fin 255

/-- `MARKER_LO`. The spec gives no value (R7, D2), so it has no body. DESIGN CHOICE (safe), log entry 1. -/
opaque markerLo : Byte

/-- The parameters of the instance that `State.reset` describes: every legal pair is possible, and none is
chosen. DESIGN CHOICE (safe), log entry 1. -/
def params : Params := ⟨BitVec.ofNat 8 (markerHiIndex.val + 1), markerLo⟩

/-- What a `DEC_BUF` entry that nothing has written since reset holds: "unspecified contents"
(spec/10_state.md R23, R36). A free value. DESIGN CHOICE (safe but for its dependence on the index alone), log entry 3. -/
opaque decBufUnspecified : Nat → Byte

end Config

end Sys2Proof
end

