-- ==== Sys2Proof/Machine/State.lean ====
section
/-! DEFINITION. The state: every element of spec/10_state.md R23, the two output streams, and the host's program and
index (R21). Plain data. -/

namespace Sys2Proof.Machine

/-- `ENC_PHASE` (R24). Code 3 is "never produced", so it has no constructor (log entry 8). -/
inductive EncPhase where
  /-- Code 0: no frame started since reset or `ENC_ABORT`. -/
  | idle
  /-- Code 1: `ENC_REM` buffer bytes are still owed. -/
  | body
  /-- Code 2: the last frame was emitted completely. -/
  | done
  deriving DecidableEq, Repr

/-- `DEC_PHASE` (R28). -/
inductive DecPhase where
  /-- Code 0: no frame armed. -/
  | idle
  /-- Code 1: expecting marker byte 0. -/
  | mark0
  /-- Code 2: expecting marker byte 1. -/
  | mark1
  /-- Code 3: expecting the high length byte. -/
  | lenHi
  /-- Code 4: expecting the low length byte. -/
  | lenLo
  /-- Code 5: expecting buffer or checksum bytes. -/
  | body
  /-- Code 6: frame decoded and verified. -/
  | done
  /-- Code 7: frame rejected. -/
  | error
  deriving DecidableEq, Repr

/-- The decoder errors (spec/60_exceptions.md R210). The first four are the source's `FramingError`, the last is its
`TimeoutError`. -/
inductive DecodeError where
  /-- Code 1. -/
  | badMarker
  /-- Code 2. -/
  | badEscape
  /-- Code 3. -/
  | badChecksum
  /-- Code 4. -/
  | zeroLength
  /-- Code 5. -/
  | timeout
  deriving DecidableEq, Repr

/-- The storage behind `DEC_BUF` (R36): (index, byte) pairs, indices strictly rising. An index that is not listed has
not been written since reset, and no byte is stored for it (log entry 3). -/
abbrev Memory := List Host.Cell

/-- Encoder registers (R24 to R27). -/
structure Encoder where
  /-- `ENC_PHASE`. -/
  phase : EncPhase
  /-- `ENC_LEN`. -/
  len : Half
  /-- `ENC_REM`. -/
  rem : Half
  /-- `ENC_ACC`. -/
  acc : Byte
  deriving DecidableEq, Repr

/-- Decoder registers and buffer (R28 to R36). -/
structure Decoder where
  /-- `DEC_PHASE`. -/
  phase : DecPhase
  /-- `DEC_ESC`. -/
  esc : Bool
  /-- `DEC_ERR`; `none` is the spec's `NONE` (code 0). -/
  err : Option DecodeError
  /-- `DEC_M0`. -/
  m0 : Byte
  /-- `DEC_LEN`. -/
  len : Half
  /-- `DEC_REM`. -/
  rem : Half
  /-- `DEC_ACC`. -/
  acc : Byte
  /-- `DEC_OUTLEN`. -/
  outlen : Half
  /-- `DEC_BUF`. -/
  buf : Memory
  deriving DecidableEq, Repr

/-- The sticky flags (R37). -/
structure Flags where
  /-- `SEQERR`. -/
  seqerr : Bool
  /-- `ILLEGAL`. -/
  illegal : Bool
  /-- `OVERSIZE`. -/
  oversize : Bool
  deriving DecidableEq, Repr

/-- The whole machine. `params` is the hardwired `PARAM` (R39): no command writes it. `tx` and `rsp` are the output
streams, oldest first (R40, R41). `program` and `pc` are the host's: the command words it presents in order, and its
index into them (R21). -/
structure State where
  params : Params
  enc : Encoder
  dec : Decoder
  flags : Flags
  tx : List Byte
  rsp : List Half
  program : List CmdWord
  pc : Nat
  deriving DecidableEq, Repr

/-- The encoder at reset (R23). -/
def Encoder.reset : Encoder := ⟨.idle, 0x0000, 0x0000, 0x00⟩

/-- The decoder at reset (R23); no entry of `DEC_BUF` is listed, since its contents are unspecified (log entry 3). -/
def Decoder.reset : Decoder := ⟨.idle, false, none, 0x00, 0x0000, 0x0000, 0x00, 0x0000, []⟩

/-- The sticky flags at reset, and after `CLR_STATUS` (R23, R194). -/
def Flags.clear : Flags := ⟨false, false, false⟩

/-- Power-on reset of the instance with the given parameters (R23, spec/70_reset_and_hazards.md R240); the streams are
empty (log entry 6) and no program is presented (log entry 5). -/
def State.resetOf (p : Params) : State :=
  { params := p, enc := Encoder.reset, dec := Decoder.reset, flags := Flags.clear, tx := [], rsp := [],
    program := [], pc := 0 }

/-- The machine right after reset, for the instance whose parameters the spec leaves OPEN (log entry 1). -/
def State.reset : State := State.resetOf Config.params

/-- Why a step stops with a fault. -/
inductive Fault where
  /-- A store to a `DEC_BUF` entry that does not exist (index 65534 or 65535; spec/20_memory.md R67). Raised by
  `DEC_BYTE` in BODY, and only in states that no run reaches (spec/40_primitives.md R119). Safe (log entry 4). -/
  | noSuchDecBufEntry (index : Nat)
  deriving DecidableEq, Repr

/-- Why a step refuses an instruction. -/
inductive Refusal where
  /-- The instruction has no meaning in the model. Raised by no instruction of this model. Safe. -/
  | notModelled (mnemonic : String)
  deriving DecidableEq, Repr

end Sys2Proof.Machine
end

