-- ==== Sys2Proof/Machine/Flags.lean ====
section
/-! DEFINITION. The sticky flags and the STATUS word (spec/10_state.md R37, R38). -/

namespace Sys2Proof.Machine

/-- `SEQERR <- 1` (spec/60_exceptions.md R211). -/
def State.raiseSeqerr (s : State) : State := { s with flags := { s.flags with seqerr := true } }

/-- `ILLEGAL <- 1` (spec/60_exceptions.md R212). -/
def State.raiseIllegal (s : State) : State := { s with flags := { s.flags with illegal := true } }

/-- `OVERSIZE <- 1` (spec/60_exceptions.md R214). -/
def State.raiseOversize (s : State) : State := { s with flags := { s.flags with oversize := true } }

/-- `SEQERR <- 0; ILLEGAL <- 0; OVERSIZE <- 0` (spec/43_control.md R194). -/
def State.clearFlags (s : State) : State := { s with flags := Flags.clear }

/-- The code of `ENC_PHASE` (R24). -/
def EncPhase.code : EncPhase → BitVec 2
  | .idle => 0
  | .body => 1
  | .done => 2

/-- The code of `DEC_PHASE` (R28). -/
def DecPhase.code : DecPhase → BitVec 3
  | .idle => 0
  | .mark0 => 1
  | .mark1 => 2
  | .lenHi => 3
  | .lenLo => 4
  | .body => 5
  | .done => 6
  | .error => 7

/-- The code of an error (R30, spec/60_exceptions.md R210). -/
def DecodeError.code : DecodeError → BitVec 3
  | .badMarker => 1
  | .badEscape => 2
  | .badChecksum => 3
  | .zeroLength => 4
  | .timeout => 5

/-- The code of `DEC_ERR`; `NONE` is 0 (R30). -/
def errCode : Option DecodeError → BitVec 3
  | none => 0
  | some e => e.code

/-- `STATUS`, composed from the state, bit 15 first (R38). -/
def statusWord (s : State) : Half :=
  0#2 ++ BitVec.ofBool s.flags.oversize ++ BitVec.ofBool s.flags.illegal ++ BitVec.ofBool s.flags.seqerr
    ++ errCode s.dec.err ++ BitVec.ofBool s.dec.esc ++ s.dec.phase.code ++ 0#2 ++ s.enc.phase.code

/-- `PARAM`: `MARKER_HI:MARKER_LO` (R39). -/
def paramWord (p : Params) : Half := p.markerHi ++ p.markerLo

end Sys2Proof.Machine
end

