-- ==== Sys2Proof/Machine/Primitives.lean ====
section
/-! DEFINITION. The primitives of spec/40_primitives.md (XOR-8 accumulator, byte escape, unescaping reader) and the
byte order of the length field (spec/20_memory.md R63). -/

namespace Sys2Proof.Machine

/-- `v[15:8]` (R119 item 7). -/
def hiByte (v : Half) : Byte := v.extractLsb' 8 8

/-- `v[7:0]` (R119 item 7). -/
def loByte (v : Half) : Byte := v.extractLsb' 0 8

/-- `hi:lo`, big-endian (spec/00_scope.md R10, R63). -/
def joinBytes (hi lo : Byte) : Half := hi ++ lo

/-- `zext_16` (R10, spec/20_memory.md R66). -/
def zext16 (b : Byte) : Half := 0#8 ++ b

/-- `Accumulate(b)` (R110). -/
def accumulate (acc b : Byte) : Byte := acc ^^^ b

/-- `Fold_xor(s)` (spec/00_scope.md R11): `Clear`, then `Accumulate` of each byte (R110). -/
def foldXor (s : List Byte) : Byte := s.foldl accumulate 0x00

/-- `Esc(x)` (R114). -/
def esc (p : Params) (x : Byte) : List Byte :=
  if x = p.markerHi then [x, Config.escFill] else [x]

/-- `EscAll(s)` (R115). -/
def escAll (p : Params) : List Byte → List Byte
  | [] => []
  | x :: s => esc p x ++ escAll p s

/-- What a Level-1 reader of the wire input answers: a value, or an error, and the input it has not consumed. -/
inductive Reading (α : Type) where
  | got (a : α) (rest : List Byte)
  | failed (e : DecodeError) (rest : List Byte)
  deriving DecidableEq, Repr

/-- One read after another: the first error ends the operation (`raise`, spec/00_scope.md R12). -/
def Reading.andThen {α β : Type} (r : Reading α) (f : α → List Byte → Reading β) : Reading β :=
  match r with
  | .got a rest => f a rest
  | .failed e rest => .failed e rest

/-- The input that a reading has not consumed. -/
def Reading.rest {α : Type} : Reading α → List Byte
  | .got _ rest => rest
  | .failed _ rest => rest

/-- `Next()` (spec/00_scope.md R12) over the wire bytes the transport delivers; when it delivers no more, the error is
`TimeoutError` (spec/42_decoder.md R161; log entry 9). -/
def nextByte : List Byte → Reading Byte
  | [] => .failed .timeout []
  | w :: ws => .got w ws

/-- `ReadU()` (R117). -/
def readU (p : Params) (ws : List Byte) : Reading Byte :=
  (nextByte ws).andThen fun w ws =>
    if w = p.markerHi then
      (nextByte ws).andThen fun f ws =>
        if f ≠ Config.escFill then .failed .badEscape ws else .got w ws
    else .got w ws

/-- `n` logical bytes through `ReadU` (spec/42_decoder.md R154). -/
def readMany (p : Params) : Nat → List Byte → Reading (List Byte)
  | 0, ws => .got [] ws
  | n + 1, ws =>
    (readU p ws).andThen fun b ws =>
      (readMany p n ws).andThen fun bs ws => .got (b :: bs) ws

end Sys2Proof.Machine
end

