-- ==== Sys2Proof/Machine/Ops.lean ====
section
/-! DEFINITION. The named operations the commands share: `DEC_BUF` storage, the output streams, and the decoder's
phase machine with its error entry and its way out. -/

namespace Sys2Proof.Machine

/-- The canonical form of `DEC_BUF`'s storage: indices strictly rising, and each an entry that exists
(spec/10_state.md R36). No byte stands for "not listed", so no listed byte is redundant. -/
def Memory.wf (m : Memory) : Bool :=
  decide (m.Pairwise (fun c d => c.1 < d.1)) && m.all (fun c => c.1 < Config.bufMax)

/-- The byte stored at an index, if one has been written. -/
def Memory.stored : Memory → Nat → Option Byte
  | [], _ => none
  | (k, v) :: m, i => if k = i then some v else Memory.stored m i

/-- Read one entry: the byte stored, or the unspecified contents of an entry nothing has written (R36; log
entry 3). -/
def Memory.read (m : Memory) (i : Nat) : Byte :=
  match m.stored i with
  | some b => b
  | none => Config.decBufUnspecified i

/-- Write one entry, keeping the indices strictly rising. -/
def Memory.write : Memory → Nat → Byte → Memory
  | [], i, b => [(i, b)]
  | (k, v) :: m, i, b =>
    if i < k then (i, b) :: (k, v) :: m
    else if i = k then (i, b) :: m
    else (k, v) :: Memory.write m i b

/-- `Emit` of each byte in order (spec/00_scope.md R12, spec/10_state.md R40). -/
def State.emit (bs : List Byte) (s : State) : State := { s with tx := s.tx ++ bs }

/-- `EscEmit(x)` (spec/40_primitives.md R116). -/
def State.escEmit (x : Byte) (s : State) : State := s.emit (esc s.params x)

/-- `Respond(v)` (spec/00_scope.md R12, spec/10_state.md R41). -/
def State.respond (v : Half) (s : State) : State := { s with rsp := s.rsp ++ [v] }

/-- Replace the encoder's registers. -/
def State.setEnc (e : Encoder) (s : State) : State := { s with enc := e }

/-- Replace the decoder's registers. -/
def State.setDec (d : Decoder) (s : State) : State := { s with dec := d }

/-- The active phases, MARK0 to BODY (spec/10_state.md R28). -/
def DecPhase.active : DecPhase → Bool
  | .idle => false
  | .mark0 => true
  | .mark1 => true
  | .lenHi => true
  | .lenLo => true
  | .body => true
  | .done => false
  | .error => false

/-- Decoder error entry, `Fail(e)` (spec/60_exceptions.md R213). `DEC_M0`, `DEC_LEN`, `DEC_REM`, `DEC_ACC` and the
stored bytes keep their values. -/
def Decoder.fail (e : DecodeError) (d : Decoder) : Decoder :=
  { d with phase := .error, err := some e, esc := false, outlen := 0 }

/-- The way out of a decoder error, and the start of every frame: what `DEC_START` does (spec/42_decoder.md R171,
spec/60_exceptions.md R217). `DEC_BUF` is not touched. -/
def Decoder.arm (d : Decoder) : Decoder :=
  { d with phase := .mark0, esc := false, err := none, m0 := 0x00, len := 0x0000, rem := 0x0000, acc := 0x00,
           outlen := 0x0000 }

/-- `Settle()`: the phase transition after a logical byte and its filler (spec/42_decoder.md R177). In the phases R177
does not name, nothing calls it in a state a run reaches, and it changes nothing. -/
def Decoder.settle (d : Decoder) : Decoder :=
  match d.phase with
  | .lenHi => { d with phase := .lenLo }
  | .lenLo =>
    if d.len = 0x0000 then d.fail .zeroLength
    else { d with rem := d.len, acc := 0x00, outlen := 0x0000, phase := .body }
  | .body =>
    if d.rem = 0 then
      if d.acc = 0x00 then { d with phase := .done } else d.fail .badChecksum
    else d
  | .idle => d
  | .mark0 => d
  | .mark1 => d
  | .done => d
  | .error => d

/-- `Logical(w)`: a `MARKER_HI` waits for its filler, any other byte settles (spec/42_decoder.md R175). -/
def Decoder.logical (p : Params) (w : Byte) (d : Decoder) : Decoder :=
  if w = p.markerHi then { d with esc := true } else d.settle

/-- Where the next wire byte is stored, if it is a buffer byte: `DEC_BUF[DEC_OUTLEN]`, in BODY, when no filler is
pending and at least the checksum follows it (spec/42_decoder.md R172, R175). -/
def Decoder.storeIndex (d : Decoder) : Option Nat :=
  if d.phase = .body ∧ d.esc = false ∧ 2 ≤ d.rem.toNat then some d.outlen.toNat else none

/-- The data effect of a BODY byte: it is accumulated, stored unless it is the checksum, and counted
(spec/42_decoder.md R172, R175). -/
def Decoder.bodyData (w : Byte) (d : Decoder) : Decoder :=
  match d.storeIndex with
  | some i =>
    { d with acc := accumulate d.acc w, buf := d.buf.write i w, outlen := d.outlen + 1, rem := d.rem - 1 }
  | none => { d with acc := accumulate d.acc w, rem := d.rem - 1 }

/-- A wire byte while a filler is pending (spec/42_decoder.md R176). -/
def Decoder.filler (w : Byte) (d : Decoder) : Decoder :=
  if w ≠ Config.escFill then d.fail .badEscape else Decoder.settle { d with esc := false }

/-- A wire byte in an active phase with no filler pending: the `case` of R172. -/
def Decoder.wireByte (p : Params) (w : Byte) (d : Decoder) : Decoder :=
  match d.phase with
  | .mark0 => { d with m0 := w, phase := .mark1 }
  | .mark1 => if d.m0 = p.markerHi ∧ w = p.markerLo then { d with phase := .lenHi } else d.fail .badMarker
  | .lenHi => Decoder.logical p w { d with len := joinBytes w (loByte d.len) }
  | .lenLo => Decoder.logical p w { d with len := joinBytes (hiByte d.len) w }
  | .body => (d.bodyData w).logical p w
  | .idle => d
  | .done => d
  | .error => d

/-- One wire byte accepted by an active decoder (spec/42_decoder.md R172): a store past the end of `DEC_BUF` is the
one thing it cannot do (log entry 4). -/
def Decoder.accept (p : Params) (w : Byte) (d : Decoder) : Except Fault Decoder :=
  if d.esc then .ok (d.filler w)
  else
    match d.storeIndex with
    | some i => if i < Config.bufMax then .ok (d.wireByte p w) else .error (.noSuchDecBufEntry i)
    | none => .ok (d.wireByte p w)

end Sys2Proof.Machine
end

