-- ==== Sys2Proof/Machine/Operands.lean ====
section
/-! DEFINITION. The operands that name something: a register number (spec/10_state.md R42) and a buffer index
(spec/43_control.md R193). -/

namespace Sys2Proof.Machine

/-- The value of a register number; `0x0A` to `0xFF` are reserved and have none (R42). -/
def readReg (s : State) (r : Byte) : Option Half :=
  match r with
  | 0x00#8 => some (statusWord s)
  | 0x01#8 => some s.enc.len
  | 0x02#8 => some s.enc.rem
  | 0x03#8 => some (zext16 s.enc.acc)
  | 0x04#8 => some s.dec.len
  | 0x05#8 => some s.dec.rem
  | 0x06#8 => some (zext16 s.dec.acc)
  | 0x07#8 => some s.dec.outlen
  | 0x08#8 => some (zext16 s.dec.m0)
  | 0x09#8 => some (paramWord s.params)
  | _ => none

/-- The value of a buffer index: in range below `DEC_OUTLEN` (R193), and never at 65534 or 65535, which are no
entries of `DEC_BUF` (R193 corner cases, spec/20_memory.md R67; log entry 4). -/
def readBuf (d : Decoder) (i : Half) : Option Half :=
  if i.toNat < d.outlen.toNat ∧ i.toNat < Config.bufMax then some (zext16 (d.buf.read i.toNat)) else none

/-- Append what a read names; a reserved number or an index out of range sets ILLEGAL and appends `0x0000`
(R192, R193). -/
def State.respondOrIllegal (v : Option Half) (s : State) : State :=
  match v with
  | some v => s.respond v
  | none => s.raiseIllegal.respond 0x0000

end Sys2Proof.Machine
end

