-- ==== Sys2Proof/Machine/ControlCommands.lean ====
section
/-! DEFINITION. The control and read commands (spec/43_control.md R190 to R195). -/

namespace Sys2Proof.Machine

/-- `NOP` (R190). -/
def execNop (s : State) : Host.Outcome State Fault Refusal := .next s

/-- `RD_REG r` (R192). -/
def execRdReg (r : Byte) (s : State) : Host.Outcome State Fault Refusal :=
  .next (s.respondOrIllegal (readReg s r))

/-- `RD_BUF i` (R193). -/
def execRdBuf (i : Half) (s : State) : Host.Outcome State Fault Refusal :=
  .next (s.respondOrIllegal (readBuf s.dec i))

/-- `CLR_STATUS` (R194): `DEC_ERR` and the phases are not cleared. -/
def execClrStatus (s : State) : Host.Outcome State Fault Refusal := .next s.clearFlags

/-- `RESET` (R195, spec/70_reset_and_hazards.md R240, R241): every register to its reset value; the streams, the
parameters and the host's program stay. `DEC_BUF` contents become unspecified, so no entry stays listed (log
entry 3). -/
def execReset (s : State) : Host.Outcome State Fault Refusal :=
  .next { s with enc := Encoder.reset, dec := Decoder.reset, flags := Flags.clear }

end Sys2Proof.Machine
end

