-- ==== Sys2Proof/Machine/DecoderCommands.lean ====
section
/-! DEFINITION. The decoder commands (spec/42_decoder.md R171 to R173). -/

namespace Sys2Proof.Machine

/-- `DEC_START` (R171): accepted in every decoder phase. -/
def execDecStart (s : State) : Host.Outcome State Fault Refusal :=
  .next (s.setDec s.dec.arm)

/-- `DEC_BYTE w` (R172, R178). -/
def execDecByte (w : Byte) (s : State) : Host.Outcome State Fault Refusal :=
  if s.dec.phase.active then
    match s.dec.accept s.params w with
    | .ok d => .next (s.setDec d)
    | .error f => .fault f
  else .next s.raiseSeqerr

/-- `DEC_ABORT` (R173): TIMEOUT in an active phase. -/
def execDecAbort (s : State) : Host.Outcome State Fault Refusal :=
  .next (if s.dec.phase.active then s.setDec (s.dec.fail .timeout) else s.raiseSeqerr)

end Sys2Proof.Machine
end

