-- ==== Sys2Proof/Machine/EncoderCommands.lean ====
section
/-! DEFINITION. The encoder commands (spec/41_encoder.md R141 to R143). -/

namespace Sys2Proof.Machine

/-- `ENC_START n` (R141): SEQERR is tested first, then OVERSIZE. -/
def execEncStart (n : Half) (s : State) : Host.Outcome State Fault Refusal :=
  .next <|
    if s.enc.phase = .body then s.raiseSeqerr
    else if n.toNat > Config.bufMax then s.raiseOversize
    else
      let len := n + 1
      let header := ((s.emit [s.params.markerHi, s.params.markerLo]).escEmit (hiByte len)).escEmit (loByte len)
      if n = 0 then (header.escEmit 0x00).setEnc ⟨.done, len, n, 0x00⟩
      else header.setEnc ⟨.body, len, n, 0x00⟩

/-- `ENC_BYTE b` (R142). -/
def execEncByte (b : Byte) (s : State) : Host.Outcome State Fault Refusal :=
  .next <|
    if s.enc.phase ≠ .body then s.raiseSeqerr
    else
      let acc := accumulate s.enc.acc b
      let rem := s.enc.rem - 1
      if rem = 0 then ((s.escEmit b).escEmit acc).setEnc ⟨.done, s.enc.len, rem, acc⟩
      else (s.escEmit b).setEnc ⟨.body, s.enc.len, rem, acc⟩

/-- `ENC_ABORT` (R143). -/
def execEncAbort (s : State) : Host.Outcome State Fault Refusal :=
  .next (s.setEnc { s.enc with phase := .idle })

end Sys2Proof.Machine
end

