-- ==== Sys2Proof/Machine/Dispatch.lean ====
section
/-! DEFINITION. One arm per command, each one call of its meaning. -/

namespace Sys2Proof.Machine

def exec (i : Instr) (s : State) : Host.Outcome State Fault Refusal :=
  match i with
  | .nop => Sys2Proof.Machine.execNop s
  | .encStart n => Sys2Proof.Machine.execEncStart n s
  | .encByte b => Sys2Proof.Machine.execEncByte b s
  | .encAbort => Sys2Proof.Machine.execEncAbort s
  | .decStart => Sys2Proof.Machine.execDecStart s
  | .decByte w => Sys2Proof.Machine.execDecByte w s
  | .decAbort => Sys2Proof.Machine.execDecAbort s
  | .rdReg r => Sys2Proof.Machine.execRdReg r s
  | .rdBuf k => Sys2Proof.Machine.execRdBuf k s
  | .clrStatus => Sys2Proof.Machine.execClrStatus s
  | .reset => Sys2Proof.Machine.execReset s

end Sys2Proof.Machine
end

