-- ==== Sys2Proof/Machine/Port.lean ====
section
/-! DEFINITION. The command port (spec/30_encoding.md R90): the word the host presents next, accepting it, and the
host's index (spec/10_state.md R21). -/

namespace Sys2Proof.Machine

/-- The word at the host's index; none once the index has reached the end of the program (R21). -/
def State.presented (s : State) : Option CmdWord := s.program[s.pc]?

/-- An illegal word sets ILLEGAL and changes nothing else (spec/30_encoding.md R94, spec/60_exceptions.md R212). -/
def illegalCommand (s : State) : State := s.raiseIllegal

/-- Accept one word: decode comes before every other check (R95, spec/60_exceptions.md R215). -/
def acceptWord (w : CmdWord) (s : State) : Host.Outcome State Fault Refusal :=
  match decode w with
  | .ok i => exec i s
  | .error _ => .next (illegalCommand s)

/-- The host's index rises by exactly 1 per command accepted (R21). -/
def State.advance (s : State) : State := { s with pc := s.pc + 1 }

/-- Apply a function to the next state, if there is one. -/
def onNext (f : State → State) (o : Host.Outcome State Fault Refusal) : Host.Outcome State Fault Refusal :=
  match o with
  | .next s => .next (f s)
  | .fault r => .fault r
  | .refused r => .refused r

/-- Go on from the next state, if there is one. -/
def andThen (o : Host.Outcome State Fault Refusal) (f : State → Host.Outcome State Fault Refusal) :
    Host.Outcome State Fault Refusal :=
  match o with
  | .next s => f s
  | .fault r => .fault r
  | .refused r => .refused r

/-- One step of the block: the presented word is accepted whole, and then the index moves (R60, R21). With no word
presented the codec idles, all state kept (spec/60_exceptions.md R221; log entry 5). -/
def stepPort (s : State) : Host.Outcome State Fault Refusal :=
  match s.presented with
  | none => .next s
  | some w => onNext State.advance (acceptWord w s)

/-- The program with `w` at index `pc`; gaps below `pc` are filled with the all-zero word, NOP (R190). -/
def placeWord (program : List CmdWord) (pc : Nat) (w : CmdWord) : List CmdWord :=
  program.take pc ++ List.replicate (pc - program.length) 0 ++ [w] ++ program.drop (pc + 1)

/-- A sequence of commands, each executed entirely before the next (spec/20_memory.md R60). -/
def execAll : List Instr → State → Host.Outcome State Fault Refusal
  | [], s => .next s
  | i :: is, s => andThen (exec i s) (execAll is)

end Sys2Proof.Machine
end

