-- ==== Sys2Proof/Machine/Step.lean ====
section
/-! DEFINITION. The step function, and placing one word where it fetches. -/

namespace Sys2Proof.Machine

/-- One step: the command the host presents next (spec/20_memory.md R60). -/
def step (s : State) : Host.Outcome State Fault Refusal := stepPort s

/-- `s` with the word whose bits are `w` presented next (spec/10_state.md R21; log entry 5). -/
def State.withFetchWord (s : State) (nbits w : Nat) : State :=
  { s with program := placeWord s.program s.pc (BitVec.ofNat 24 (w % 2 ^ nbits)) }

end Sys2Proof.Machine
end

