-- ==== Sys2Proof/Machine/Assembler.lean ====
section
/-! DEFINITION. The assembler of spec/30_encoding.md R97 and the pseudo-instructions of R98. It is the host's tool, not
the block's: nothing in the step function uses it. -/

namespace Sys2Proof.Machine

/-- The pseudo-instructions (R98). -/
inductive Pseudo where
  /-- `ENC_FRAME b0, …` -/
  | encFrame (buf : List Byte)
  /-- `DEC_FRAME w0, …` -/
  | decFrame (wire : List Byte)
  /-- `RD_STATUS` -/
  | rdStatus
  /-- `RD_PARAM` -/
  | rdParam
  deriving DecidableEq, Repr

/-- The commands a pseudo-instruction stands for (R98). An `ENC_FRAME` of more than 65535 bytes has none: its
`ENC_START` operand would be out of range (R97). -/
def Pseudo.expand : Pseudo → Option (List Instr)
  | .encFrame buf =>
    if buf.length < 65536 then some (.encStart (BitVec.ofNat 16 buf.length) :: buf.map .encByte) else none
  | .decFrame wire => some (.decStart :: wire.map .decByte)
  | .rdStatus => some [.rdReg 0x00]
  | .rdParam => some [.rdReg 0x09]

/-- Why a line has no words. -/
inductive AsmError where
  /-- The first word of the line is no mnemonic of R93 or R98. -/
  | unknownMnemonic
  /-- An operand is neither a numeral nor `H` nor `L`. -/
  | badOperand
  /-- An operand is missing, superfluous or out of its range (R97). -/
  | badCommand
  deriving DecidableEq, Repr

/-- The value of a digit, in either case of letters. -/
def digitValue (c : Char) : Option Nat :=
  if '0' ≤ c ∧ c ≤ '9' then some (c.toNat - '0'.toNat)
  else if 'a' ≤ c ∧ c ≤ 'f' then some (c.toNat - 'a'.toNat + 10)
  else if 'A' ≤ c ∧ c ≤ 'F' then some (c.toNat - 'A'.toNat + 10)
  else none

/-- The digits of a numeral, most significant first, after the value read so far. -/
def digitsValue (base : Nat) : Nat → List Char → Option Nat
  | acc, [] => some acc
  | acc, c :: cs =>
    match digitValue c with
    | some d => if d < base then digitsValue base (acc * base + d) cs else none
    | none => none

/-- A decimal (`3`) or hex (`0x03`) numeral (R97). -/
def numeral : List Char → Option Nat
  | [] => none
  | '0' :: 'x' :: cs => if cs = [] then none else digitsValue 16 0 cs
  | cs => digitsValue 10 0 cs

/-- A numeral, or `H` or `L` for the marker's bytes (R97). -/
def operandAtom (p : Params) (cs : List Char) : Option Nat :=
  if cs = ['H'] then some p.markerHi.toNat
  else if cs = ['L'] then some p.markerLo.toNat
  else numeral cs

/-- Blanks between the parts of a line (log entry 10). -/
def isBlank (c : Char) : Bool := c = ' ' ∨ c = '\t' ∨ c = '\r'

/-- Without the blanks at both ends. -/
def trimBlanks (cs : List Char) : List Char := ((cs.dropWhile isBlank).reverse.dropWhile isBlank).reverse

/-- The parts of a text between separators; a text without one is one part. -/
def splitAt (sep : Char) : List Char → List (List Char)
  | [] => [[]]
  | c :: cs =>
    if c = sep then [] :: splitAt sep cs
    else
      match splitAt sep cs with
      | [] => [[c]]
      | part :: parts => (c :: part) :: parts

/-- An operand: one value, or the exclusive-or of several, written with `^` as program P2 of spec/95_test_vectors.md
writes `H^0x03` (log entry 10). -/
def operandValue (p : Params) (cs : List Char) : Option Nat :=
  (((splitAt '^' cs).map trimBlanks).mapM (operandAtom p)).map (fun vs => vs.foldl (· ^^^ ·) 0)

/-- The operands of a line, separated by commas (R98); no text is no operand. -/
def operandValues (p : Params) (cs : List Char) : Option (List Nat) :=
  if trimBlanks cs = [] then some [] else ((splitAt ',' cs).map trimBlanks).mapM (operandValue p)

/-- The operands of a pseudo-instruction, each a byte. -/
def operandBytes (vs : List Nat) : Option (List Byte) :=
  vs.mapM fun v => if v < 256 then some (BitVec.ofNat 8 v) else none

/-- The command a mnemonic and its operands name (R93); two operands are never right. -/
def commandOf (op : Byte) (format : Format) (vs : List Nat) : Option Command :=
  match vs with
  | [] => some ⟨op, format, none⟩
  | [v] => some ⟨op, format, some v⟩
  | _ => none

/-- `OP << 16 | operand`; an operand out of range is refused, not truncated (R97). -/
def commandWord (c : Command) : Option CmdWord :=
  if c.wellFormed then some (c.op ++ BitVec.ofNat 16 (c.operand.getD 0)) else none

/-- The opcode and format of a mnemonic (R93). -/
def mnemonicRow (name : List Char) : Option (Byte × Format) :=
  if name = "NOP".toList then some (0x00, .f0)
  else if name = "ENC_START".toList then some (0x01, .f16)
  else if name = "ENC_BYTE".toList then some (0x02, .f8)
  else if name = "ENC_ABORT".toList then some (0x03, .f0)
  else if name = "DEC_START".toList then some (0x11, .f0)
  else if name = "DEC_BYTE".toList then some (0x12, .f8)
  else if name = "DEC_ABORT".toList then some (0x13, .f0)
  else if name = "RD_REG".toList then some (0x20, .f8)
  else if name = "RD_BUF".toList then some (0x21, .f16)
  else if name = "CLR_STATUS".toList then some (0x30, .f0)
  else if name = "RESET".toList then some (0x3F, .f0)
  else none

/-- The pseudo-instruction of a mnemonic and its operands: the inner `none` is a wrong operand, the outer one
another mnemonic (R98). -/
def pseudoOf (name : List Char) (vs : List Nat) : Option (Option Pseudo) :=
  if name = "ENC_FRAME".toList then some ((operandBytes vs).map .encFrame)
  else if name = "DEC_FRAME".toList then some ((operandBytes vs).map .decFrame)
  else if name = "RD_STATUS".toList then some (if vs = [] then some .rdStatus else none)
  else if name = "RD_PARAM".toList then some (if vs = [] then some .rdParam else none)
  else none

/-- The words of a mnemonic with its operands (R97, R98). -/
def assembleCommand (name : List Char) (vs : List Nat) : Except AsmError (List CmdWord) :=
  match mnemonicRow name with
  | some (op, format) =>
    match (commandOf op format vs).bind commandWord with
    | some w => .ok [w]
    | none => .error .badCommand
  | none =>
    match pseudoOf name vs with
    | none => .error .unknownMnemonic
    | some ps =>
      match ps.bind Pseudo.expand with
      | some is => .ok (is.map encode)
      | none => .error .badCommand

/-- One line: `;` starts a comment, then `MNEMONIC [operand]` (R97); a line with nothing before its comment has no
words (log entry 10). -/
def assembleLine (p : Params) (line : List Char) : Except AsmError (List CmdWord) :=
  let code := trimBlanks (line.takeWhile (· ≠ ';'))
  let name := code.takeWhile (fun c => !isBlank c)
  if name = [] then .ok []
  else
    match operandValues p (code.dropWhile (fun c => !isBlank c)) with
    | some vs => assembleCommand name vs
    | none => .error .badOperand

/-- A program: one command per line (R97), the words in order. -/
def assemble (p : Params) (text : List Char) : Except AsmError (List CmdWord) :=
  ((splitAt '\n' text).mapM (assembleLine p)).map List.flatten

end Sys2Proof.Machine
end

