-- ==== Sys2Proof/Machine/LevelOne.lean ====
section
/-! DEFINITION. Level 1, normative: `Encode` (spec/41_encoder.md R130) and `Decode` (spec/42_decoder.md R150). -/

namespace Sys2Proof.Machine

/-- The length field of a frame for `buf`: `|buf| + 1` (R130, spec/30_encoding.md R82). -/
def frameLen (buf : List Byte) : Half := BitVec.ofNat 16 (buf.length + 1)

/-- The logical body: length, buffer, checksum (spec/30_encoding.md R80). -/
def frameBody (buf : List Byte) : List Byte :=
  [hiByte (frameLen buf), loByte (frameLen buf)] ++ buf ++ [foldXor buf]

/-- `Encode(buf)` (R130); a buffer longer than `BUF_MAX` has no value (R132). -/
def encodeFrame (p : Params) (buf : List Byte) : Option (List Byte) :=
  if buf.length ≤ Config.bufMax then
    some ([p.markerHi, p.markerLo] ++ escAll p (frameBody buf))
  else none

/-- `Decode()` on the wire input `ws` (R150 to R157, R160, R161). -/
def decodeFrame (p : Params) (ws : List Byte) : Reading (List Byte) :=
  (nextByte ws).andThen fun m0 ws =>
  (nextByte ws).andThen fun m1 ws =>
  if m0 ≠ p.markerHi ∨ m1 ≠ p.markerLo then .failed .badMarker ws
  else
    (readU p ws).andThen fun hi ws =>
    (readU p ws).andThen fun lo ws =>
    let len := joinBytes hi lo
    if len = 0 then .failed .zeroLength ws
    else
      (readMany p len.toNat ws).andThen fun data ws =>
      if foldXor data ≠ 0x00 then .failed .badChecksum ws
      else .got (data.take (len.toNat - 1)) ws

end Sys2Proof.Machine
end

