-- ==== Sys2Proof/Safety.lean ====
section
/-! DEFINITION. What holds of every state a run reaches (spec/10_state.md R43), and how command sequences are spoken of
in the statements. -/

namespace Sys2Proof.Machine

/-- The encoder's invariants (R43 I-E1, I-E2). -/
structure Encoder.Inv (e : Encoder) : Prop where
  body : e.phase = .body →
    1 ≤ e.rem.toNat ∧ e.rem.toNat ≤ e.len.toNat - 1 ∧ e.len.toNat - 1 ≤ Config.bufMax
  done : e.phase = .done → e.rem = 0

/-- The decoder's invariants (R43 I-D1 to I-D6), and three that R43 leaves to its readers: `DEC_OUTLEN` is 0 outside
BODY and DONE (R193 cites it), the storage of `DEC_BUF` is in canonical form, and every entry below `DEC_OUTLEN` has
been written (R36). -/
structure Decoder.Inv (d : Decoder) : Prop where
  esc : d.esc = true → d.phase = .lenHi ∨ d.phase = .lenLo ∨ d.phase = .body
  bodyCount : d.phase = .body → 1 ≤ d.rem.toNat → d.outlen.toNat + d.rem.toNat = d.len.toNat
  bodyLast : d.phase = .body → d.rem = 0 → d.esc = true ∧ d.outlen.toNat = d.len.toNat - 1
  done : d.phase = .done →
    d.rem = 0 ∧ d.acc = 0 ∧ d.outlen.toNat = d.len.toNat - 1 ∧ 1 ≤ d.len.toNat ∧ d.esc = false
  error : d.phase = .error ↔ d.err ≠ none
  errorClear : d.phase = .error → d.outlen = 0 ∧ d.esc = false
  len : d.phase = .body ∨ d.phase = .done → 1 ≤ d.len.toNat
  outlen : d.phase ≠ .body → d.phase ≠ .done → d.outlen = 0
  bufWf : Memory.wf d.buf = true
  bufListed : ∀ i < d.outlen.toNat, (d.buf.stored i).isSome

/-- What every step keeps: R43, a legal instance (spec/00_scope.md R7), and the host's index within its program
(spec/10_state.md R21). -/
structure State.Inv (s : State) : Prop where
  params : s.params.Legal
  enc : s.enc.Inv
  dec : s.dec.Inv
  pc : s.pc ≤ s.program.length

/-- A sequence of commands `is` in which exactly `own` are of one half, in that order, with any commands but `RESET`
between them, before and after: of the other half, `NOP`, reads and `CLR_STATUS` (spec/41_encoder.md R140,
spec/42_decoder.md R170, spec/43_control.md R190). `RESET` belongs to neither half but ends a frame of both (R195). -/
def Interleaved (half : Instr → Bool) (own is : List Instr) : Prop :=
  is.filter half = own ∧ Instr.reset ∉ is

/-- The commands that feed a whole buffer to the encoder (R140, spec/30_encoding.md R98). -/
def encodeCommands (buf : List Byte) : List Instr :=
  .encStart (BitVec.ofNat 16 buf.length) :: buf.map .encByte

/-- The commands that feed wire bytes to a freshly armed decoder (R170, R98). -/
def decodeCommands (ws : List Byte) : List Instr := .decStart :: ws.map .decByte

/-- The decoded buffer: `DEC_BUF[0 : DEC_OUTLEN]` (spec/10_state.md R28, R36). -/
def Decoder.result (d : Decoder) : List Byte := (List.range d.outlen.toNat).map d.buf.read

end Sys2Proof.Machine
end

