-- ==== Sys2Proof/Certificates/Slice0/Obligations.lean ====
section
/-! DEFINITION. The statements for the provers. Each docstring names the rule it formalises. -/

open Sys2Proof Sys2Proof.Machine

/-! ## The wire format and its primitives (Level 1) -/

/-- R111: the laws of the accumulator, and what it detects. Flipping one bit of one byte changes the checksum;
flipping the same bit an even number of times, in whichever bytes, does not. -/
def Obligations.XorAccumulatorLaws : Prop :=
  (∀ a b c : Byte, accumulate a 0x00 = a ∧ accumulate a a = 0x00 ∧ accumulate a b = accumulate b a ∧
    accumulate (accumulate a b) c = accumulate a (accumulate b c)) ∧
  (∀ s t : List Byte, foldXor (s ++ t) = accumulate (foldXor s) (foldXor t)) ∧
  (∀ s : List Byte, foldXor (s ++ [foldXor s]) = 0x00) ∧
  (∀ s t : List Byte, s.Perm t → foldXor s = foldXor t) ∧
  (∀ (s : List Byte) (i : Nat) (k : Nat), i < s.length → k < 8 →
    foldXor (s.modify i (fun b => b ^^^ BitVec.twoPow 8 k)) ≠ foldXor s) ∧
  (∀ (s : List Byte) (is : List Nat) (k : Nat), (∀ i ∈ is, i < s.length) → is.Nodup → is.length % 2 = 0 →
    foldXor (is.foldl (fun s i => s.modify i (fun b => b ^^^ BitVec.twoPow 8 k)) s) = foldXor s)

/-- R115: the laws of sequence escape. -/
def Obligations.EscapeLaws : Prop :=
  ∀ p : Params, p.Legal →
    escAll p [] = [] ∧
    (∀ x s, escAll p (x :: s) = esc p x ++ escAll p s) ∧
    (∀ s t, escAll p (s ++ t) = escAll p s ++ escAll p t) ∧
    (∀ s, (escAll p s).length = s.length + s.count p.markerHi) ∧
    (∀ s i, (escAll p s)[i]? = some p.markerHi → (escAll p s)[i + 1]? = some 0x00)

/-- R117: the unescaping read consumes one byte, or two when the first is `MARKER_HI`; the filler is checked before it
returns. -/
def Obligations.UnescapingRead : Prop :=
  ∀ (p : Params) (w f : Byte) (ws : List Byte),
    readU p [] = .failed .timeout [] ∧
    (w ≠ p.markerHi → readU p (w :: ws) = .got w ws) ∧
    readU p [p.markerHi] = .failed .timeout [] ∧
    readU p (p.markerHi :: 0x00 :: ws) = .got p.markerHi ws ∧
    (f ≠ 0x00 → readU p (p.markerHi :: f :: ws) = .failed .badEscape ws) ∧
    (p.Legal → readU p (p.markerHi :: p.markerHi :: ws) = .failed .badEscape ws)

/-- R118: unescape is the inverse of escape. -/
def Obligations.UnescapeInvertsEscape : Prop :=
  ∀ (p : Params) (s rest : List Byte), readMany p s.length (escAll p s ++ rest) = .got s rest

/-- R132, R133: `Encode` has a value exactly on buffers of at most 65534 bytes, and the length of that value. -/
def Obligations.EncodeDomainAndLength : Prop :=
  ∀ (p : Params) (buf : List Byte),
    (65534 < buf.length → encodeFrame p buf = none) ∧
    (buf.length ≤ 65534 → ∃ wire, encodeFrame p buf = some wire ∧
      wire.length = 5 + buf.length +
        ([hiByte (BitVec.ofNat 16 (buf.length + 1)), loByte (BitVec.ofNat 16 (buf.length + 1))] ++ buf
          ++ [foldXor buf]).count p.markerHi)

/-- R88: outside the leading marker, encoder output never holds `MARKER_HI` without an injected zero byte after it. -/
def Obligations.EncodedFrameEscapesMarkerHi : Prop :=
  ∀ (p : Params) (buf wire : List Byte), p.Legal → encodeFrame p buf = some wire →
    wire.take 2 = [p.markerHi, p.markerLo] ∧
    ∀ i, 2 ≤ i → wire[i]? = some p.markerHi → wire[i + 1]? = some 0x00

/-- R151: the marker is compared literally, after both of its bytes have been consumed. -/
def Obligations.DecodeComparesMarkerLiterally : Prop :=
  ∀ (p : Params) (m0 m1 : Byte) (ws : List Byte),
    (¬(m0 = p.markerHi ∧ m1 = p.markerLo) → decodeFrame p (m0 :: m1 :: ws) = .failed .badMarker ws) ∧
    (∀ rest, decodeFrame p (p.markerHi :: p.markerLo :: ws) ≠ .failed .badMarker rest) ∧
    decodeFrame p [m0] = .failed .timeout [] ∧ decodeFrame p [] = .failed .timeout []

/-- R163: decoding what the encoder produced gives the buffer back and consumes exactly the frame. -/
def Obligations.DecodeInvertsEncode : Prop :=
  ∀ (p : Params) (buf wire rest : List Byte), encodeFrame p buf = some wire →
    decodeFrame p (wire ++ rest) = .got buf rest

/-- R164: the decoder accepts exactly the encoder's outputs: what it accepts is an encoding of what it returns, every
encoding is accepted, and two accepted frames of one buffer are the same bytes. -/
def Obligations.DecodeAcceptsExactlyEncodedFrames : Prop :=
  (∀ (p : Params) (ws buf rest : List Byte),
    decodeFrame p ws = .got buf rest ↔ ∃ wire, encodeFrame p buf = some wire ∧ ws = wire ++ rest) ∧
  ∀ (p : Params) (ws₁ ws₂ buf : List Byte),
    decodeFrame p ws₁ = .got buf [] → decodeFrame p ws₂ = .got buf [] → ws₁ = ws₂

/-- R158: a decode that ends without a timeout has consumed exactly a prefix that settles its outcome whatever follows,
and no shorter prefix ends it; on success that prefix has the frame's length. -/
def Obligations.DecodeConsumesNoByteBeyondItsOutcome : Prop :=
  ∀ (p : Params) (ws : List Byte) (r : List Byte → Reading (List Byte)) (rest : List Byte),
    (r = Reading.failed .badMarker ∨ r = Reading.failed .badEscape ∨ r = Reading.failed .badChecksum ∨
      r = Reading.failed .zeroLength ∨ ∃ buf, r = Reading.got buf) →
    decodeFrame p ws = r rest →
    ∃ used, ws = used ++ rest ∧ (∀ rest', decodeFrame p (used ++ rest') = r rest') ∧
      (∀ k < used.length, decodeFrame p (used.take k) = .failed .timeout []) ∧
      ∀ buf, r rest = .got buf rest →
        used.length = 5 + buf.length +
          ([hiByte (BitVec.ofNat 16 (buf.length + 1)), loByte (BitVec.ofNat 16 (buf.length + 1))] ++ buf
            ++ [foldXor buf]).count p.markerHi

/-- R162, as C1 corrects it: after a successful decode, buffer and received checksum have XOR zero. -/
def Obligations.DecodedFrameHasZeroXor : Prop :=
  ∀ (p : Params) (ws buf rest : List Byte), decodeFrame p ws = .got buf rest →
    ∃ (hi lo c : Byte) (body : List Byte), foldXor (buf ++ [c]) = 0x00 ∧
      (hi ++ lo : Half).toNat = buf.length + 1 ∧ body = [hi, lo] ++ buf ++ [c] ∧
      ws = [p.markerHi, p.markerLo] ++ escAll p body ++ rest

/-! ## Command words -/

/-- Every command's word decodes to that command, with every operand (R93, R95). -/
def Obligations.DecodeOfEncodeIsTheCommand : Prop :=
  ∀ i : Instr, i.wellFormed = true ∧ decode (encode i) = .ok i

/-- A word that decodes is the word of the command it decodes to: no bit is dropped and no two words are one command
(R93, R95). -/
def Obligations.EncodeOfDecodeIsTheWord : Prop :=
  ∀ (w : CmdWord) (i : Instr), decode w = .ok i → encode i = w

/-- A word decodes to a command of a row exactly when it matches that row of spec/opcode_table.json. -/
def Obligations.DecodeAgreesWithOpcodeTable : Prop :=
  ∀ (w : CmdWord) (i : Instr),
    (w &&& i.tableMask = i.tableMatch ↔ ∃ j, decode w = .ok j ∧ j.tableMatch = i.tableMatch)

/-- R94: the reserved opcodes, the must-be-zero bits, and what an illegal command does. -/
def Obligations.IllegalWordsSetIllegalAndNothingElse : Prop :=
  ∀ (w : CmdWord) (s : State),
    let op := (w.extractLsb' 16 8).toNat
    let imm := (w.extractLsb' 0 16).toNat
    let reserved := (0x04 ≤ op ∧ op ≤ 0x10) ∨ (0x14 ≤ op ∧ op ≤ 0x1F) ∨ (0x22 ≤ op ∧ op ≤ 0x2F) ∨
      (0x31 ≤ op ∧ op ≤ 0x3E) ∨ (0x40 ≤ op ∧ op ≤ 0xFF)
    let nonzero := (op ∈ [0x00, 0x03, 0x11, 0x13, 0x30, 0x3F] ∧ imm ≠ 0) ∨
      (op ∈ [0x02, 0x12, 0x20] ∧ 256 ≤ imm)
    ((∃ r, decode w = .error r) ↔ reserved ∨ nonzero) ∧
    (reserved ∨ nonzero → acceptWord w s = .next { s with flags := { s.flags with illegal := true } })

/-- A few words written out from the encodings of R93 and R97. -/
def Obligations.SampleWordsDecode : Prop :=
  decode 0x000000 = .ok .nop ∧ decode 0x010002 = .ok (.encStart 2) ∧ decode 0x020001 = .ok (.encByte 0x01) ∧
  decode 0x120055 = .ok (.decByte 0x55) ∧ decode 0x200009 = .ok (.rdReg 0x09) ∧
  decode 0x21FFFE = .ok (.rdBuf 0xFFFE) ∧ decode 0x3F0000 = .ok .reset ∧
  decode 0x040000 = .error (.reservedOpcode 0x04) ∧ decode 0x020100 = .error (.mustBeZero 0x02)

/-- R97: the word of a command as written is `OP << 16 | operand`, and an operand out of range is refused. -/
def Obligations.AssemblerWordsAndRefusals : Prop :=
  (∀ i : Instr, commandWord i.toCommand = some (encode i)) ∧
  (∀ (op : Byte) (v : Nat), (commandWord ⟨op, .f8, some v⟩ = none ↔ 256 ≤ v) ∧
    (commandWord ⟨op, .f16, some v⟩ = none ↔ 65536 ≤ v) ∧
    commandWord ⟨op, .f0, some v⟩ = none) ∧
  (∀ op : Byte, commandWord ⟨op, .f8, none⟩ = none ∧ commandWord ⟨op, .f16, none⟩ = none) ∧
  (∀ (c : Command) (w : CmdWord), commandWord c = some w → w.toNat = c.op.toNat * 65536 + c.operand.getD 0)

/-- R98: the pseudo-instructions expand to the commands of the rule. -/
def Obligations.PseudoInstructionsExpand : Prop :=
  (∀ buf : List Byte, buf.length < 65536 →
    assembleCommand "ENC_FRAME".toList (buf.map BitVec.toNat) =
      .ok ((Instr.encStart (BitVec.ofNat 16 buf.length) :: buf.map Instr.encByte).map encode)) ∧
  (∀ wire : List Byte, assembleCommand "DEC_FRAME".toList (wire.map BitVec.toNat) =
    .ok ((Instr.decStart :: wire.map Instr.decByte).map encode)) ∧
  assembleCommand "RD_STATUS".toList [] = .ok [encode (.rdReg 0x00)] ∧
  assembleCommand "RD_PARAM".toList [] = .ok [encode (.rdReg 0x09)]

/-! ## The step -/

/-- A step runs the command the presented word decodes to, and then the host's index has risen by 1 (R21, R60). A fault
stops the step where the command stops, and no command is refused. -/
def Obligations.StepRunsThePresentedCommand : Prop :=
  ∀ (s : State) (w : CmdWord) (i : Instr), s.program[s.pc]? = some w → decode w = .ok i →
    (∀ t, exec i s = .next t → step s = .next { t with pc := s.pc + 1 }) ∧
    (∀ f, exec i s = .fault f → step s = .fault f) ∧
    ∀ r, exec i s ≠ .refused r

/-- A step on an illegal word sets ILLEGAL and moves on; at the end of the program a step changes nothing. The moving
on is the model's reading (log entry 5). -/
def Obligations.StepOnIllegalWordAndAtTheEnd : Prop :=
  ∀ s : State,
    (∀ w r, s.program[s.pc]? = some w → decode w = .error r →
      step s = .next { s with flags := { s.flags with illegal := true }, pc := s.pc + 1 }) ∧
    (s.program.length ≤ s.pc → step s = .next s)

/-- The index rises by exactly 1 per word accepted, no command changes it, and the run ends at the program's length
(R21). That an illegal word counts as accepted is the model's reading (log entry 5). -/
def Obligations.IndexRisesByOnePerCommand : Prop :=
  (∀ (i : Instr) (s t : State), exec i s = .next t → t.pc = s.pc ∧ t.program = s.program) ∧
  (∀ s t : State, step s = .next t → t.program = s.program ∧
    (s.pc < s.program.length → t.pc = s.pc + 1) ∧ (s.program.length ≤ s.pc → t = s)) ∧
  State.reset.pc = 0

/-- Running a program of command words, step by step from index 0, is executing its commands in order (R21, R60). -/
def Obligations.ProgramRunsItsCommandsInOrder : Prop :=
  ∀ (is : List Instr) (s t : State), execAll is s = .next t →
    Sys2Proof.core.run is.length { s with program := is.map encode, pc := 0 } =
      .next { t with program := is.map encode, pc := is.length }

/-! ## Control and read commands -/

/-- R192: `RD_REG` appends exactly one value: the register's, or `0x0000` with ILLEGAL for a reserved number. -/
def Obligations.ReadRegisterReturnsItsValue : Prop :=
  ∀ s : State,
    exec (.rdReg 0x00) s = .next { s with rsp := s.rsp ++ [statusWord s] } ∧
    exec (.rdReg 0x01) s = .next { s with rsp := s.rsp ++ [s.enc.len] } ∧
    exec (.rdReg 0x02) s = .next { s with rsp := s.rsp ++ [s.enc.rem] } ∧
    exec (.rdReg 0x03) s = .next { s with rsp := s.rsp ++ [s.enc.acc.setWidth 16] } ∧
    exec (.rdReg 0x04) s = .next { s with rsp := s.rsp ++ [s.dec.len] } ∧
    exec (.rdReg 0x05) s = .next { s with rsp := s.rsp ++ [s.dec.rem] } ∧
    exec (.rdReg 0x06) s = .next { s with rsp := s.rsp ++ [s.dec.acc.setWidth 16] } ∧
    exec (.rdReg 0x07) s = .next { s with rsp := s.rsp ++ [s.dec.outlen] } ∧
    exec (.rdReg 0x08) s = .next { s with rsp := s.rsp ++ [s.dec.m0.setWidth 16] } ∧
    exec (.rdReg 0x09) s = .next { s with rsp := s.rsp ++ [s.params.markerHi ++ s.params.markerLo] } ∧
    ∀ r : Byte, 0x0A ≤ r.toNat →
      exec (.rdReg r) s = .next { s with rsp := s.rsp ++ [0x0000], flags := { s.flags with illegal := true } }

/-- R38: the fields of STATUS, with the codes of R24, R28 and R30. -/
def Obligations.StatusFields : Prop :=
  [EncPhase.idle, .body, .done].map EncPhase.code = [0, 1, 2] ∧
  [DecPhase.idle, .mark0, .mark1, .lenHi, .lenLo, .body, .done, .error].map DecPhase.code = [0, 1, 2, 3, 4, 5, 6, 7] ∧
  [none, some DecodeError.badMarker, some .badEscape, some .badChecksum, some .zeroLength, some .timeout].map errCode =
    [0, 1, 2, 3, 4, 5] ∧
  ∀ s : State,
    (statusWord s).extractLsb' 0 2 = s.enc.phase.code ∧
    (statusWord s).extractLsb' 2 2 = 0 ∧
    (statusWord s).extractLsb' 4 3 = s.dec.phase.code ∧
    (statusWord s).getLsbD 7 = s.dec.esc ∧
    (statusWord s).extractLsb' 8 3 = errCode s.dec.err ∧
    (statusWord s).getLsbD 11 = s.flags.seqerr ∧
    (statusWord s).getLsbD 12 = s.flags.illegal ∧
    (statusWord s).getLsbD 13 = s.flags.oversize ∧
    (statusWord s).extractLsb' 14 2 = 0

/-- `RD_BUF` (R193): in range it appends the entry, out of range `0x0000` with ILLEGAL; 65534 and 65535 are always out
of range, which in states no run reaches is the model's reading (log entry 4); IDLE and ERROR have no entry in range. -/
def Obligations.ReadBufferReturnsItsEntry : Prop :=
  ∀ (s : State) (i : Half),
    (i.toNat < s.dec.outlen.toNat → i.toNat < 65534 →
      exec (.rdBuf i) s = .next { s with rsp := s.rsp ++ [(s.dec.buf.read i.toNat).setWidth 16] }) ∧
    (s.dec.outlen.toNat ≤ i.toNat ∨ 65534 ≤ i.toNat →
      exec (.rdBuf i) s = .next { s with rsp := s.rsp ++ [0x0000], flags := { s.flags with illegal := true } }) ∧
    (s.Inv → s.dec.phase = .idle ∨ s.dec.phase = .error →
      exec (.rdBuf i) s = .next { s with rsp := s.rsp ++ [0x0000], flags := { s.flags with illegal := true } })

/-- R190, R194: `NOP` changes nothing, and `CLR_STATUS` clears the three sticky flags and changes nothing else. -/
def Obligations.NopAndClearStatusEffect : Prop :=
  ∀ s : State, exec .nop s = .next s ∧ exec .clrStatus s = .next { s with flags := ⟨false, false, false⟩ }

/-- `RESET` puts every register in its reset value and keeps the streams, the parameters and the host's program
(R195, R240, R241). That the storage of `DEC_BUF` lists nothing afterwards is how the model says "unspecified
contents" (log entry 3). -/
def Obligations.ResetCommandRestoresResetValues : Prop :=
  ∀ s : State,
    exec .reset s = .next { s with
      enc := ⟨.idle, 0x0000, 0x0000, 0x00⟩,
      dec := ⟨.idle, false, none, 0x00, 0x0000, 0x0000, 0x00, 0x0000, []⟩,
      flags := ⟨false, false, false⟩ } ∧
    ∃ t u, exec .reset s = .next t ∧ exec (.rdReg 0x00) t = .next u ∧ u.rsp = s.rsp ++ [0x0000]

/-- R240: the state after power-on reset, of the OPEN instance and of any other, and the state after the `RESET`
command: every register's reset value, and STATUS. -/
def Obligations.ResetStateHasResetValues : Prop :=
  ∀ s : State, (s = State.reset ∨ (∃ p, s = State.resetOf p) ∨ ∃ u, exec .reset u = .next s) →
    s.enc.phase = .idle ∧ s.enc.len = 0 ∧ s.enc.rem = 0 ∧ s.enc.acc = 0 ∧
    s.dec.phase = .idle ∧ s.dec.err = none ∧ s.dec.esc = false ∧ s.dec.m0 = 0 ∧ s.dec.len = 0 ∧ s.dec.rem = 0 ∧
    s.dec.acc = 0 ∧ s.dec.outlen = 0 ∧
    s.flags.seqerr = false ∧ s.flags.illegal = false ∧ s.flags.oversize = false ∧ statusWord s = 0x0000

/-! ## Encoder commands -/

/-- `ENC_START` (R141), whole state: refused in BODY, then for `n = 0xFFFF`; else the marker, the escaped length and, for
an empty buffer, the checksum; and how many bytes that appends to TX. -/
def Obligations.EncodeStartEffect : Prop :=
  ∀ (s : State) (n : Half),
    (s.enc.phase = .body → exec (.encStart n) s = .next { s with flags := { s.flags with seqerr := true } }) ∧
    (s.enc.phase ≠ .body → n = 0xFFFF →
      exec (.encStart n) s = .next { s with flags := { s.flags with oversize := true } }) ∧
    (s.enc.phase ≠ .body → n ≠ 0xFFFF → n ≠ 0 →
      exec (.encStart n) s = .next { s with
        enc := ⟨.body, n + 1, n, 0x00⟩,
        tx := s.tx ++ [s.params.markerHi, s.params.markerLo] ++ esc s.params ((n + 1).extractLsb' 8 8)
          ++ esc s.params ((n + 1).extractLsb' 0 8) }) ∧
    (s.enc.phase ≠ .body →
      exec (.encStart 0) s = .next { s with
        enc := ⟨.done, 1, 0, 0x00⟩,
        tx := s.tx ++ [s.params.markerHi, s.params.markerLo] ++ esc s.params 0x00 ++ esc s.params 0x01
          ++ esc s.params 0x00 }) ∧
    (∀ t, s.params.Legal → s.enc.phase ≠ .body → n ≠ 0xFFFF → exec (.encStart n) s = .next t →
      (n ≠ 0 → s.tx.length + 4 ≤ t.tx.length ∧ t.tx.length ≤ s.tx.length + 6) ∧
      (n = 0 → t.tx.length = s.tx.length + if s.params.markerHi = 0x01 then 6 else 5))

/-- `ENC_BYTE` (R142), whole state: refused outside BODY; else the escaped byte, and after the last one the escaped
checksum. -/
def Obligations.EncodeByteEffect : Prop :=
  ∀ (s : State) (b : Byte),
    (s.enc.phase ≠ .body → exec (.encByte b) s = .next { s with flags := { s.flags with seqerr := true } }) ∧
    (s.enc.phase = .body → 2 ≤ s.enc.rem.toNat →
      exec (.encByte b) s = .next { s with
        enc := ⟨.body, s.enc.len, s.enc.rem - 1, s.enc.acc ^^^ b⟩,
        tx := s.tx ++ esc s.params b }) ∧
    (s.enc.phase = .body → s.enc.rem = 1 →
      exec (.encByte b) s = .next { s with
        enc := ⟨.done, s.enc.len, 0, s.enc.acc ^^^ b⟩,
        tx := s.tx ++ esc s.params b ++ esc s.params (s.enc.acc ^^^ b) })

/-- R143: `ENC_ABORT` only sets the phase; emitted bytes stay emitted. -/
def Obligations.EncodeAbortEffect : Prop :=
  ∀ s : State, exec .encAbort s = .next { s with enc := { s.enc with phase := .idle } }

/-- R140: `ENC_START n` and `n` `ENC_BYTE`s append `Encode` of the buffer to TX, whatever commands come before, between
and after them that are neither encoder commands nor `RESET`. -/
def Obligations.EncoderAgreesWithLevelOneEncode : Prop :=
  ∀ (s : State) (buf : List Byte) (is : List Instr), s.Inv → s.enc.phase ≠ .body → buf.length ≤ 65534 →
    Interleaved Instr.isEncoderCommand (encodeCommands buf) is →
    ∃ t wire, execAll is s = .next t ∧ encodeFrame s.params buf = some wire ∧ t.tx = s.tx ++ wire ∧
      t.enc = ⟨.done, BitVec.ofNat 16 (buf.length + 1), 0, foldXor buf⟩

/-! ## Decoder commands -/

/-- R171: `DEC_START` writes every decoder register, in every phase; the buffer's bytes and everything else stay. -/
def Obligations.DecodeStartEffect : Prop :=
  ∀ s : State, exec .decStart s = .next { s with
    dec := ⟨.mark0, false, none, 0x00, 0x0000, 0x0000, 0x00, 0x0000, s.dec.buf⟩ }

/-- R178: outside the active phases `DEC_BYTE` sets SEQERR and changes nothing else. -/
def Obligations.DecodeByteOutsideActivePhases : Prop :=
  ∀ (s : State) (w : Byte), s.dec.phase = .idle ∨ s.dec.phase = .done ∨ s.dec.phase = .error →
    exec (.decByte w) s = .next { s with flags := { s.flags with seqerr := true } }

/-- R174: the marker phases, whole state. -/
def Obligations.DecodeByteMarkerPhases : Prop :=
  ∀ (s : State) (w : Byte), s.dec.esc = false →
    (s.dec.phase = .mark0 →
      exec (.decByte w) s = .next { s with dec := { s.dec with m0 := w, phase := .mark1 } }) ∧
    (s.dec.phase = .mark1 → s.dec.m0 = s.params.markerHi → w = s.params.markerLo →
      exec (.decByte w) s = .next { s with dec := { s.dec with phase := .lenHi } }) ∧
    (s.dec.phase = .mark1 → ¬(s.dec.m0 = s.params.markerHi ∧ w = s.params.markerLo) →
      exec (.decByte w) s = .next { s with
        dec := { s.dec with phase := .error, err := some .badMarker, outlen := 0 } })

/-- The length phases (R172, R175, R177), whole state: a byte equal to `MARKER_HI` waits for its filler, a zero length
is rejected at once. -/
def Obligations.DecodeByteLengthPhases : Prop :=
  ∀ (s : State) (w : Byte), s.dec.esc = false →
    (s.dec.phase = .lenHi → w = s.params.markerHi →
      exec (.decByte w) s = .next { s with dec := { s.dec with len := w ++ s.dec.len.extractLsb' 0 8, esc := true } }) ∧
    (s.dec.phase = .lenHi → w ≠ s.params.markerHi →
      exec (.decByte w) s = .next { s with
        dec := { s.dec with len := w ++ s.dec.len.extractLsb' 0 8, phase := .lenLo } }) ∧
    (s.dec.phase = .lenLo → w = s.params.markerHi →
      exec (.decByte w) s = .next { s with dec := { s.dec with len := s.dec.len.extractLsb' 8 8 ++ w, esc := true } }) ∧
    (s.dec.phase = .lenLo → w ≠ s.params.markerHi → (s.dec.len.extractLsb' 8 8 ++ w : Half) = 0 →
      exec (.decByte w) s = .next { s with
        dec := { s.dec with len := 0, phase := .error, err := some .zeroLength, outlen := 0 } }) ∧
    (s.dec.phase = .lenLo → w ≠ s.params.markerHi → (s.dec.len.extractLsb' 8 8 ++ w : Half) ≠ 0 →
      exec (.decByte w) s = .next { s with
        dec := { s.dec with
          len := s.dec.len.extractLsb' 8 8 ++ w, rem := s.dec.len.extractLsb' 8 8 ++ w, acc := 0, outlen := 0,
          phase := .body } })

/-- The body phase (R172, R175, R177), whole state: a buffer byte is accumulated, stored at `DEC_OUTLEN` and counted; the
checksum byte is accumulated and counted, and ends the frame unless it waits for its filler. The store goes through
when its index is an entry of `DEC_BUF`, which every reachable state gives. -/
def Obligations.DecodeByteBodyPhase : Prop :=
  ∀ (s : State) (w : Byte), s.dec.phase = .body → s.dec.esc = false →
    (2 ≤ s.dec.rem.toNat → s.dec.outlen.toNat < 65534 →
      exec (.decByte w) s = .next { s with
        dec := { s.dec with
          acc := s.dec.acc ^^^ w, buf := s.dec.buf.write s.dec.outlen.toNat w, outlen := s.dec.outlen + 1,
          rem := s.dec.rem - 1, esc := decide (w = s.params.markerHi) } }) ∧
    (s.dec.rem = 1 → w = s.params.markerHi →
      exec (.decByte w) s = .next { s with dec := { s.dec with acc := s.dec.acc ^^^ w, rem := 0, esc := true } }) ∧
    (s.dec.rem = 1 → w ≠ s.params.markerHi → s.dec.acc = w →
      exec (.decByte w) s = .next { s with dec := { s.dec with acc := 0, rem := 0, phase := .done } }) ∧
    (s.dec.rem = 1 → w ≠ s.params.markerHi → s.dec.acc ≠ w →
      exec (.decByte w) s = .next { s with
        dec := { s.dec with
          acc := s.dec.acc ^^^ w, rem := 0, phase := .error, err := some .badChecksum, outlen := 0 } })

/-- R176: the filler is checked before anything it completes, and it is not accumulated, stored or counted. -/
def Obligations.DecodeByteFiller : Prop :=
  ∀ (s : State) (w : Byte), s.dec.esc = true →
    (s.dec.phase = .lenHi ∨ s.dec.phase = .lenLo ∨ s.dec.phase = .body → w ≠ 0x00 →
      exec (.decByte w) s = .next { s with
        dec := { s.dec with phase := .error, err := some .badEscape, esc := false, outlen := 0 } }) ∧
    (s.dec.phase = .lenHi →
      exec (.decByte 0x00) s = .next { s with dec := { s.dec with esc := false, phase := .lenLo } }) ∧
    (s.dec.phase = .lenLo → s.dec.len = 0 →
      exec (.decByte 0x00) s = .next { s with
        dec := { s.dec with phase := .error, err := some .zeroLength, esc := false, outlen := 0 } }) ∧
    (s.dec.phase = .lenLo → s.dec.len ≠ 0 →
      exec (.decByte 0x00) s = .next { s with
        dec := { s.dec with esc := false, rem := s.dec.len, acc := 0, outlen := 0, phase := .body } }) ∧
    (s.dec.phase = .body → s.dec.rem ≠ 0 →
      exec (.decByte 0x00) s = .next { s with dec := { s.dec with esc := false } }) ∧
    (s.dec.phase = .body → s.dec.rem = 0 → s.dec.acc = 0 →
      exec (.decByte 0x00) s = .next { s with dec := { s.dec with esc := false, phase := .done } }) ∧
    (s.dec.phase = .body → s.dec.rem = 0 → s.dec.acc ≠ 0 →
      exec (.decByte 0x00) s = .next { s with
        dec := { s.dec with phase := .error, err := some .badChecksum, esc := false, outlen := 0 } })

/-- The frame of `DEC_BYTE`: it changes nothing but the decoder and SEQERR, and of `DEC_BUF` only the entry its own
`storeIndex` names, which then holds the byte (R175). -/
def Obligations.DecodeByteFrame : Prop :=
  ∀ (s t : State) (w : Byte), exec (.decByte w) s = .next t →
    t = { s with dec := t.dec, flags := { s.flags with seqerr := t.flags.seqerr } } ∧
    (∀ a, s.dec.storeIndex ≠ some a → t.dec.buf.read a = s.dec.buf.read a) ∧
    (∀ a, s.dec.storeIndex = some a → t.dec.buf.read a = w)

/-- R173: `DEC_ABORT` in an active phase ends the frame with TIMEOUT, every register kept but those `Fail` writes; in
IDLE, DONE and ERROR it sets SEQERR only. -/
def Obligations.DecodeAbortEffect : Prop :=
  ∀ s : State,
    (s.dec.phase = .mark0 ∨ s.dec.phase = .mark1 ∨ s.dec.phase = .lenHi ∨ s.dec.phase = .lenLo ∨ s.dec.phase = .body →
      exec .decAbort s = .next { s with
        dec := { s.dec with phase := .error, err := some .timeout, esc := false, outlen := 0 } }) ∧
    (s.dec.phase = .idle ∨ s.dec.phase = .done ∨ s.dec.phase = .error →
      exec .decAbort s = .next { s with flags := { s.flags with seqerr := true } })

/-- R170: fed one wire byte at a time, whatever commands come between that are neither decoder commands nor `RESET`, the
decoder ends where `Decode` ends: in DONE with its buffer, in ERROR with its error, or still active, at exactly the byte
where `Decode` ends. `ws` is the whole wire input, of which `j` bytes have been fed. Every byte after the end sets SEQERR
and is ignored; that SEQERR is still set later needs that no `CLR_STATUS` is among the commands. -/
def Obligations.DecoderAgreesWithLevelOneDecode : Prop :=
  ∀ (s : State) (ws : List Byte) (j : Nat) (is : List Instr), s.Inv → j ≤ ws.length →
    Interleaved Instr.isDecoderCommand (decodeCommands (ws.take j)) is →
    ∃ t, execAll is s = .next t ∧
      (∀ buf rest, decodeFrame s.params ws = .got buf rest →
        (j + rest.length < ws.length → t.dec.phase.active = true) ∧
        (ws.length ≤ j + rest.length →
          t.dec.phase = .done ∧ t.dec.outlen.toNat = buf.length ∧ t.dec.result = buf ∧
          ∀ w, exec (.decByte w) t = .next { t with flags := { t.flags with seqerr := true } }) ∧
        (ws.length < j + rest.length → Instr.clrStatus ∉ is → t.flags.seqerr = true)) ∧
      (∀ e rest, decodeFrame s.params ws = .failed e rest → e ≠ .timeout →
        (j + rest.length < ws.length → t.dec.phase.active = true) ∧
        (ws.length ≤ j + rest.length →
          t.dec.phase = .error ∧ t.dec.err = some e ∧
          ∀ w, exec (.decByte w) t = .next { t with flags := { t.flags with seqerr := true } }) ∧
        (ws.length < j + rest.length → Instr.clrStatus ∉ is → t.flags.seqerr = true)) ∧
      (∀ rest, decodeFrame s.params ws = .failed .timeout rest →
        t.dec.phase.active = true ∧
        ∃ u, exec .decAbort t = .next u ∧ u.dec.phase = .error ∧ u.dec.err = some .timeout)

/-- The loop-back of program P3, for every buffer: what the encoder emits, fed to the decoder, is decoded to the buffer
(R140, R163, R170). -/
def Obligations.LoopbackReturnsTheBuffer : Prop :=
  ∀ (s : State) (buf : List Byte), s.Inv → s.enc.phase ≠ .body → buf.length ≤ 65534 →
    ∃ t u wire, execAll (encodeCommands buf) s = .next t ∧ t.tx = s.tx ++ wire ∧
      execAll (decodeCommands wire) t = .next u ∧ u.dec.phase = .done ∧ u.dec.err = none ∧ u.dec.result = buf ∧
      u.flags = s.flags

/-! ## Errors and flags, over all commands -/

/-- R210, R213: the only ways into ERROR, the cause of each code, and what is kept. -/
def Obligations.DecoderErrorEntry : Prop :=
  ∀ (s t : State) (i : Instr), exec i s = .next t → s.dec.phase ≠ .error → t.dec.phase = .error →
    t.dec.outlen = 0 ∧ t.dec.esc = false ∧ t.dec.m0 = s.dec.m0 ∧
    t = { s with dec := t.dec } ∧
    ((i = .decAbort ∧ t.dec.err = some .timeout ∧ s.dec.phase.active = true ∧ t.dec.len = s.dec.len ∧
        t.dec.rem = s.dec.rem ∧ t.dec.acc = s.dec.acc) ∨
      ∃ w, i = .decByte w ∧
        ((t.dec.err = some .badMarker ∧ s.dec.phase = .mark1 ∧
            ¬(s.dec.m0 = s.params.markerHi ∧ w = s.params.markerLo)) ∨
          (t.dec.err = some .badEscape ∧ s.dec.esc = true ∧ w ≠ 0x00 ∧ t.dec.len = s.dec.len ∧
            t.dec.rem = s.dec.rem ∧ t.dec.acc = s.dec.acc) ∨
          (t.dec.err = some .zeroLength ∧ s.dec.phase = .lenLo ∧ t.dec.len = 0) ∨
          (t.dec.err = some .badChecksum ∧ s.dec.phase = .body ∧ t.dec.rem = 0 ∧ t.dec.acc ≠ 0x00 ∧
            t.dec.len = s.dec.len)))

/-- R217, R218: ERROR is left only by `DEC_START` and `RESET`; any other command keeps the whole decoder, so the first
error of a frame is kept, and `DEC_BYTE` and `DEC_ABORT` set SEQERR. -/
def Obligations.DecoderErrorIsKeptUntilRearmed : Prop :=
  ∀ (s t : State) (i : Instr), s.dec.phase = .error → exec i s = .next t →
    (i ≠ .decStart → i ≠ .reset → t.dec = s.dec) ∧
    (i = .decAbort ∨ (∃ w, i = .decByte w) → t.flags.seqerr = true) ∧
    (i = .decStart → t.dec.phase = .mark0 ∧ t.dec.err = none) ∧
    (i = .reset → t.dec.phase = .idle ∧ t.dec.err = none)

/-- R211: when a command is refused for its phase, and that it then changes nothing but SEQERR; no other command, and
no other phase, raises SEQERR. -/
def Obligations.SeqerrExactlyWhenRefused : Prop :=
  ∀ (s : State) (i : Instr),
    let refused := ((∃ n, i = .encStart n) ∧ s.enc.phase = .body) ∨
      ((∃ b, i = .encByte b) ∧ (s.enc.phase = .idle ∨ s.enc.phase = .done)) ∨
      ((∃ w, i = .decByte w) ∧ (s.dec.phase = .idle ∨ s.dec.phase = .done ∨ s.dec.phase = .error)) ∨
      (i = .decAbort ∧ (s.dec.phase = .idle ∨ s.dec.phase = .done ∨ s.dec.phase = .error))
    (refused → exec i s = .next { s with flags := { s.flags with seqerr := true } }) ∧
    (¬refused → s.flags.seqerr = false → ∀ t, exec i s = .next t → t.flags.seqerr = false)

/-- R212: the three causes of ILLEGAL, over command words. -/
def Obligations.IllegalExactlyThreeCauses : Prop :=
  ∀ (s t : State) (w : CmdWord), s.Inv → s.flags.illegal = false → acceptWord w s = .next t →
    (t.flags.illegal = true ↔
      (∃ r, decode w = .error r) ∨ (∃ r : Byte, decode w = .ok (.rdReg r) ∧ 0x0A ≤ r.toNat) ∨
        ∃ i : Half, decode w = .ok (.rdBuf i) ∧ s.dec.outlen.toNat ≤ i.toNat) ∧
    ((∃ r, decode w = .error r) → t = { s with flags := { s.flags with illegal := true } }) ∧
    (t.flags.illegal = true → (∃ i, decode w = .ok i) → t.rsp = s.rsp ++ [0x0000])

/-- R37: the sticky flags are set by their events and cleared only by `CLR_STATUS` or reset. A command that sets one
changes no other state, except that a read appends its one value. -/
def Obligations.StickyFlagsClearedOnlyByClearOrReset : Prop :=
  ∀ (s t : State) (i : Instr), exec i s = .next t →
    (i ≠ .clrStatus → i ≠ .reset →
      (s.flags.seqerr = true → t.flags.seqerr = true) ∧ (s.flags.illegal = true → t.flags.illegal = true) ∧
      (s.flags.oversize = true → t.flags.oversize = true)) ∧
    (s.flags.oversize = false → t.flags.oversize = true → i = .encStart 0xFFFF) ∧
    (s.flags.seqerr = false ∧ t.flags.seqerr = true ∨ s.flags.oversize = false ∧ t.flags.oversize = true →
      t = { s with flags := t.flags }) ∧
    (s.flags.illegal = false → t.flags.illegal = true →
      ((∃ r, i = .rdReg r) ∨ ∃ k, i = .rdBuf k) ∧ t = { s with flags := t.flags, rsp := s.rsp ++ [0x0000] })

/-- One command raises at most one error, in the order decode, phase, operand, data (R215). That a filler of 0x00 may
complete into an error is the model's reading of R215 beside R176 and R177 (log entry 11). -/
def Obligations.ErrorPriority : Prop :=
  ∀ (s t : State) (w : CmdWord), s.flags = ⟨false, false, false⟩ → s.dec.phase ≠ .error →
    acceptWord w s = .next t →
    ([t.flags.seqerr, t.flags.illegal, t.flags.oversize, decide (t.dec.phase = .error)].count true ≤ 1) ∧
    ((∃ r, decode w = .error r) → t.flags = ⟨false, true, false⟩) ∧
    (decode w = .ok (.encStart 0xFFFF) → s.enc.phase = .body → t.flags = ⟨true, false, false⟩) ∧
    (decode w = .ok (.encStart 0xFFFF) → s.enc.phase ≠ .body → t.flags = ⟨false, false, true⟩) ∧
    (∀ b, decode w = .ok (.decByte b) → s.dec.esc = true → t.dec.phase = .error →
      t.dec.err = some .badEscape ∨ b = 0x00)

/-- R250: set sticky flags stop no command: with any other flags the same command does the same, but for the flags
themselves and the STATUS value read. -/
def Obligations.StickyFlagsDoNotBlock : Prop :=
  ∀ (s t : State) (i : Instr) (f : Flags), exec i s = .next t →
    ∃ t', exec i { s with flags := f } = .next t' ∧
      { t' with flags := t.flags, rsp := t.rsp } = t ∧ (i ≠ .rdReg 0x00 → t'.rsp = t.rsp)

/-! ## Streams, parameters, independence -/

/-- R41: RSP is append-only; each read appends exactly one value, and no other command appends anything. -/
def Obligations.ResponseStreamGrowsOnlyByReads : Prop :=
  ∀ (s t : State) (i : Instr), exec i s = .next t →
    ((∃ r, i = .rdReg r) ∨ (∃ k, i = .rdBuf k) → ∃ v, t.rsp = s.rsp ++ [v]) ∧
    ((∀ r, i ≠ .rdReg r) → (∀ k, i ≠ .rdBuf k) → t.rsp = s.rsp)

/-- TX is append-only and only `ENC_START` and `ENC_BYTE` write it (R40, R67). -/
def Obligations.TransmitStreamGrowsOnlyByEncoding : Prop :=
  ∀ (s t : State) (i : Instr), exec i s = .next t →
    s.tx <+: t.tx ∧ ((∀ n, i ≠ .encStart n) → (∀ b, i ≠ .encByte b) → t.tx = s.tx)

/-- The reads change no state but ILLEGAL and the one value appended, and a repeated read returns the same value
(R69). -/
def Obligations.ReadsAreIdempotent : Prop :=
  ∀ (s : State) (i : Instr), (∃ r, i = .rdReg r) ∨ (∃ k, i = .rdBuf k) →
    ∃ t u v, exec i s = .next t ∧ exec i t = .next u ∧ t.rsp = s.rsp ++ [v] ∧ u.rsp = s.rsp ++ [v, v] ∧
      t = { s with rsp := t.rsp, flags := { s.flags with illegal := t.flags.illegal } } ∧ u.flags = t.flags

/-- The instance parameters are never written, by any command or step, and `PARAM` reads them (R7, R39, R241). -/
def Obligations.ParametersNeverChange : Prop :=
  (∀ (s t : State) (i : Instr), exec i s = .next t → t.params = s.params) ∧
  (∀ s t : State, step s = .next t → t.params = s.params) ∧
  (∀ s t : State, exec (.rdReg 0x09) s = .next t → t.rsp = s.rsp ++ [s.params.markerHi ++ s.params.markerLo]) ∧
  State.reset.params.Legal

/-- R45: neither half reads or writes the other's state, so their commands commute. -/
def Obligations.EncoderAndDecoderAreIndependent : Prop :=
  ∀ (s : State) (e d : Instr), e.isEncoderCommand = true → d.isDecoderCommand = true →
    (∀ t, exec e s = .next t → t.dec = s.dec) ∧
    (∀ t, exec d s = .next t → t.enc = s.enc ∧ t.tx = s.tx) ∧
    (∀ x, exec e (s.setDec x) = onNext (State.setDec x) (exec e s)) ∧
    (∀ x, exec d (s.setEnc x) = onNext (State.setEnc x) (exec d s)) ∧
    execAll [e, d] s = execAll [d, e] s

/-- R44: what a frame produces depends only on its own commands, and not on anything an earlier frame left, sticky flags
included. -/
def Obligations.NoStateCrossesFrames : Prop :=
  ∀ s₁ s₂ : State, s₁.Inv → s₂.Inv → s₁.params = s₂.params →
    (∀ (n : Half) (bs : List Byte), s₁.enc.phase ≠ .body → s₂.enc.phase ≠ .body → n ≠ 0xFFFF →
      ∃ t₁ t₂ out, execAll (.encStart n :: bs.map .encByte) s₁ = .next t₁ ∧
        execAll (.encStart n :: bs.map .encByte) s₂ = .next t₂ ∧ t₁.enc = t₂.enc ∧
        t₁.tx = s₁.tx ++ out ∧ t₂.tx = s₂.tx ++ out) ∧
    (∀ ws : List Byte, ∃ t₁ t₂, execAll (decodeCommands ws) s₁ = .next t₁ ∧
      execAll (decodeCommands ws) s₂ = .next t₂ ∧ { t₁.dec with buf := [] } = { t₂.dec with buf := [] } ∧
      t₁.dec.result = t₂.dec.result)

/-! ## Invariants -/

/-- The invariants of R43 hold after reset, of the OPEN instance and of every legal one (R240). -/
def Obligations.InvariantsHoldAtReset : Prop :=
  State.reset.Inv ∧ ∀ p : Params, p.Legal → (State.resetOf p).Inv

/-- R43: every step keeps the invariants, from every state that has them. -/
def Obligations.StepKeepsInvariants : Prop :=
  ∀ s t : State, s.Inv → step s = .next t → t.Inv

/-- Under the invariants no step faults or refuses: the block has no traps (60_exceptions.md, opening). -/
def Obligations.StepNeverStops : Prop :=
  ∀ s : State, s.Inv → ∃ t, step s = .next t

/-- Every program, run for any number of steps from the reset state of any legal instance, goes on, and its state has
the invariants (R43, R119). -/
def Obligations.EveryRunKeepsInvariants : Prop :=
  ∀ (p : Params) (program : List CmdWord) (n : Nat), p.Legal →
    ∃ t, Sys2Proof.core.run n { State.resetOf p with program := program } = .next t ∧ t.Inv

/-- A garbage length holds the decoder (R153, R247): whatever the length field, the decoder stays in BODY until that
many logical bytes have arrived. -/
def Obligations.BodyLastsForTheWholeLength : Prop :=
  ∀ (s : State) (bs : List Byte), s.Inv → s.dec.phase = .body → s.dec.esc = false → bs.length < s.dec.rem.toNat →
    ∃ t, execAll ((escAll s.params bs).map .decByte) s = .next t ∧ t.dec.phase = .body ∧ t.dec.esc = false ∧
      t.dec.rem.toNat + bs.length = s.dec.rem.toNat ∧
      t.dec.acc = accumulate s.dec.acc (foldXor bs) ∧ t.dec.result = s.dec.result ++ bs
end

