-- ==== Sys2Proof/Laws/Words.lean ====
section
/-! SUPPORT. Splitting and joining of words, the legality of the instance, and the small laws of the primitives. -/

namespace Sys2Proof

theorem getLsbD_word (op : Byte) (imm : Half) (i : Nat) :
    (op ++ imm : CmdWord).getLsbD i = if i < 16 then imm.getLsbD i else op.getLsbD (i - 16) := by
  have h := BitVec.getLsbD_append (x := op) (y := imm) (i := i)
  simpa using h

theorem getLsbD_half (hi lo : Byte) (i : Nat) :
    (hi ++ lo : Half).getLsbD i = if i < 8 then lo.getLsbD i else hi.getLsbD (i - 8) := by
  have h := BitVec.getLsbD_append (x := hi) (y := lo) (i := i)
  simpa using h

@[simp] theorem opField_append (op : Byte) (imm : Half) : opField (op ++ imm) = op := by
  apply BitVec.eq_of_getLsbD_eq
  intro i hi
  simp only [opField, BitVec.getLsbD_extractLsb', getLsbD_word]
  simp [hi]

@[simp] theorem immField_append (op : Byte) (imm : Half) : immField (op ++ imm) = imm := by
  apply BitVec.eq_of_getLsbD_eq
  intro i hi
  simp only [immField, BitVec.getLsbD_extractLsb', getLsbD_word]
  simp [hi]

/-- The operand field is its two halves. -/
theorem immHigh_append_immLow (w : CmdWord) : immHigh w ++ immLow w = immField w := by
  apply BitVec.eq_of_getLsbD_eq
  intro i h
  simp only [BitVec.getLsbD_append, immHigh, immLow, immField, BitVec.getLsbD_extractLsb']
  by_cases hi : i < 8
  · simp [hi, h]
  · have : i - 8 < 8 := by omega
    have : 8 + (i - 8) = i := by omega
    simp [*]

@[simp] theorem extract_high_append (hi lo : Byte) : (hi ++ lo : Half).extractLsb' 8 8 = hi := by
  apply BitVec.eq_of_getLsbD_eq
  intro i h
  simp only [BitVec.getLsbD_extractLsb', getLsbD_half]
  simp [h]

@[simp] theorem extract_low_append (hi lo : Byte) : (hi ++ lo : Half).extractLsb' 0 8 = lo := by
  apply BitVec.eq_of_getLsbD_eq
  intro i h
  simp only [BitVec.getLsbD_extractLsb', getLsbD_half]
  simp [h]

theorem half_append_inj {a b c d : Byte} (h : (a ++ b : Half) = c ++ d) : a = c ∧ b = d :=
  ⟨by rw [← extract_high_append a b, h, extract_high_append], by rw [← extract_low_append a b, h, extract_low_append]⟩

theorem immHigh_append (op a b : Byte) : immHigh (op ++ (a ++ b : Half)) = a := by
  have h := immHigh_append_immLow (op ++ (a ++ b : Half))
  rw [immField_append] at h
  exact (half_append_inj h).1

theorem immLow_append (op a b : Byte) : immLow (op ++ (a ++ b : Half)) = b := by
  have h := immHigh_append_immLow (op ++ (a ++ b : Half))
  rw [immField_append] at h
  exact (half_append_inj h).2

/-- The word is its two fields. -/
theorem opField_append_immField (w : CmdWord) : opField w ++ immField w = w := by
  apply BitVec.eq_of_getLsbD_eq
  intro i h
  simp only [BitVec.getLsbD_append, opField, immField, BitVec.getLsbD_extractLsb']
  by_cases hi : i < 16
  · simp [hi]
  · have : i - 16 < 8 := by omega
    have : 16 + (i - 16) = i := by omega
    simp [*]

theorem Config.params_legal : Config.params.Legal := by
  intro h
  have := congrArg BitVec.toNat h
  have := Config.markerHiIndex.isLt
  simp [Config.params] at *
  omega

namespace Machine

@[simp] theorem hiByte_joinBytes (hi lo : Byte) : hiByte (joinBytes hi lo) = hi := extract_high_append hi lo

@[simp] theorem loByte_joinBytes (hi lo : Byte) : loByte (joinBytes hi lo) = lo := extract_low_append hi lo

@[simp] theorem joinBytes_hiByte_loByte (v : Half) : joinBytes (hiByte v) (loByte v) = v := by
  apply BitVec.eq_of_getLsbD_eq
  intro i h
  simp only [joinBytes, hiByte, loByte, BitVec.getLsbD_append, BitVec.getLsbD_extractLsb']
  by_cases hi : i < 8
  · simp [hi]
  · have : i - 8 < 8 := by omega
    have : 8 + (i - 8) = i := by omega
    simp [*]

@[simp] theorem escAll_nil (p : Params) : escAll p [] = [] := rfl

@[simp] theorem escAll_cons (p : Params) (x : Byte) (s : List Byte) : escAll p (x :: s) = esc p x ++ escAll p s := rfl

@[simp] theorem Reading.andThen_got {α β : Type} (a : α) (ws : List Byte) (f : α → List Byte → Reading β) :
    (Reading.got a ws).andThen f = f a ws := rfl

@[simp] theorem Reading.andThen_failed {α β : Type} (e : DecodeError) (ws : List Byte)
    (f : α → List Byte → Reading β) : (Reading.failed e ws).andThen f = .failed e ws := rfl

@[simp] theorem nextByte_nil : nextByte [] = .failed .timeout [] := rfl

@[simp] theorem nextByte_cons (w : Byte) (ws : List Byte) : nextByte (w :: ws) = .got w ws := rfl

end Machine

end Sys2Proof
end

