-- ==== Sys2Proof/Laws/LevelOne.lean ====
section
/-! SUPPORT. The small laws of the Level-1 functions: the checksum of a longer sequence, and everything one unescaping
read can answer. -/

namespace Sys2Proof.Machine

/-- Folding on from a value is accumulating onto it. -/
theorem foldl_accumulate (a : Byte) (s : List Byte) : s.foldl accumulate a = accumulate a (foldXor s) := by
  induction s generalizing a with
  | nil => simp [foldXor, accumulate]
  | cons b s ih =>
    simp only [foldXor, List.foldl_cons]
    rw [ih, ih (accumulate 0x00 b)]
    simp [accumulate, BitVec.xor_assoc]

@[simp] theorem foldXor_nil : foldXor [] = 0x00 := rfl

@[simp] theorem foldXor_cons (b : Byte) (s : List Byte) : foldXor (b :: s) = accumulate b (foldXor s) := by
  rw [foldXor, List.foldl_cons, foldl_accumulate]
  simp [accumulate]

/-- Everything one unescaping read can answer (R117). -/
theorem readU_cases (p : Params) (ws : List Byte) :
    (ws = [] ∧ readU p ws = .failed .timeout []) ∨
    (∃ w rest, ws = w :: rest ∧ w ≠ p.markerHi ∧ readU p ws = .got w rest) ∨
    (ws = [p.markerHi] ∧ readU p ws = .failed .timeout []) ∨
    (∃ rest, ws = p.markerHi :: Config.escFill :: rest ∧ readU p ws = .got p.markerHi rest) ∨
    (∃ f rest, ws = p.markerHi :: f :: rest ∧ f ≠ Config.escFill ∧ readU p ws = .failed .badEscape rest) := by
  cases ws with
  | nil => exact .inl ⟨rfl, rfl⟩
  | cons w ws =>
    by_cases hw : w = p.markerHi
    · subst hw
      cases ws with
      | nil => exact .inr (.inr (.inl ⟨rfl, by simp [readU]⟩))
      | cons f ws =>
        by_cases hf : f = Config.escFill
        · subst hf
          exact .inr (.inr (.inr (.inl ⟨ws, rfl, by simp [readU]⟩)))
        · exact .inr (.inr (.inr (.inr ⟨f, ws, rfl, hf, by simp [readU, hf]⟩)))
    · exact .inr (.inl ⟨w, ws, rfl, hw, by simp [readU, hw]⟩)

end Sys2Proof.Machine
end

