-- ==== Sys2Proof/Laws/Memory.lean ====
section
/-! SUPPORT. The laws of `DEC_BUF`'s storage: read after write, and that a write keeps the canonical form. -/

namespace Sys2Proof.Machine

@[simp] theorem Memory.stored_nil (i : Nat) : Memory.stored [] i = none := rfl

theorem Memory.stored_write (m : Memory) (i j : Nat) (b : Byte) :
    (m.write i b).stored j = if i = j then some b else m.stored j := by
  induction m with
  | nil => simp [Memory.write, Memory.stored]
  | cons c m ih =>
    obtain ⟨k, v⟩ := c
    simp only [Memory.write]
    split
    · simp [Memory.stored]
    · split
      · subst i
        simp only [Memory.stored]
        split <;> simp_all
      · simp only [Memory.stored, ih]
        split
        · subst k
          simp [*]
        · rfl

@[simp] theorem Memory.stored_write_same (m : Memory) (i : Nat) (b : Byte) :
    (m.write i b).stored i = some b := by
  simp [Memory.stored_write]

theorem Memory.stored_write_other (m : Memory) {i j : Nat} (b : Byte) (h : i ≠ j) :
    (m.write i b).stored j = m.stored j := by
  simp [Memory.stored_write, h]

theorem Memory.read_write (m : Memory) (i j : Nat) (b : Byte) :
    (m.write i b).read j = if i = j then b else m.read j := by
  unfold Memory.read
  rw [Memory.stored_write]
  by_cases h : i = j <;> simp [h]

theorem Memory.read_of_stored {m : Memory} {i : Nat} {b : Byte} (h : m.stored i = some b) : m.read i = b := by
  simp [Memory.read, h]

theorem Memory.mem_write {m : Memory} {i : Nat} {b : Byte} {c : Host.Cell} (h : c ∈ m.write i b) :
    c = (i, b) ∨ c ∈ m := by
  induction m with
  | nil => simpa [Memory.write] using h
  | cons d m ih =>
    obtain ⟨k, v⟩ := d
    simp only [Memory.write] at h
    split at h
    · simpa using h
    · split at h
      · rcases List.mem_cons.mp h with h | h <;> simp [h]
      · rcases List.mem_cons.mp h with h | h
        · simp [h]
        · rcases ih h with h | h <;> simp [h]

theorem Memory.wf_iff (m : Memory) :
    m.wf = true ↔ m.Pairwise (fun c d => c.1 < d.1) ∧ ∀ c ∈ m, c.1 < Config.bufMax := by
  simp [Memory.wf]

@[simp] theorem Memory.wf_nil : Memory.wf [] = true := rfl

theorem Memory.write_wf {m : Memory} {i : Nat} (b : Byte) (hm : m.wf = true) (hi : i < Config.bufMax) :
    (m.write i b).wf = true := by
  rw [Memory.wf_iff] at hm ⊢
  refine ⟨?_, fun c hc => ?_⟩
  · obtain ⟨hs, -⟩ := hm
    induction m with
    | nil => simp [Memory.write]
    | cons d m ih =>
      obtain ⟨k, v⟩ := d
      obtain ⟨hk, hs⟩ := List.pairwise_cons.mp hs
      simp only [Memory.write]
      split
      · rename_i hik
        refine List.pairwise_cons.mpr ⟨fun c hc => ?_, List.pairwise_cons.mpr ⟨hk, hs⟩⟩
        rcases List.mem_cons.mp hc with rfl | hc
        · exact hik
        · exact Nat.lt_trans hik (hk c hc)
      · split
        · subst i
          exact List.pairwise_cons.mpr ⟨hk, hs⟩
        · refine List.pairwise_cons.mpr ⟨fun c hc => ?_, ih hs⟩
          rcases Memory.mem_write hc with rfl | hc
          · show k < i
            omega
          · exact hk c hc
  · rcases Memory.mem_write hc with rfl | hc
    · exact hi
    · exact hm.2 c hc

end Sys2Proof.Machine
end

