-- ==== Sys2Proof/Laws/Operands.lean ====
section
/-! SUPPORT. Which register numbers and buffer indices name something. -/

namespace Sys2Proof.Machine

/-- The reserved register numbers are `0x0A` to `0xFF` (R42). -/
theorem readReg_eq_none (s : State) (r : Byte) : readReg s r = none ↔ 0x0A ≤ r.toNat := by
  have key : ∀ k : Byte, r ≠ k → r.toNat ≠ k.toNat := fun _ h h' => h (BitVec.eq_of_toNat_eq h')
  unfold readReg
  split
  case h_11 h0 h1 h2 h3 h4 h5 h6 h7 h8 h9 =>
    have := key _ h0
    have := key _ h1
    have := key _ h2
    have := key _ h3
    have := key _ h4
    have := key _ h5
    have := key _ h6
    have := key _ h7
    have := key _ h8
    have := key _ h9
    simp at *
    omega
  all_goals simp

/-- Everything a buffer read can answer (R193). -/
theorem readBuf_cases (d : Decoder) (i : Half) :
    (i.toNat < d.outlen.toNat ∧ i.toNat < Config.bufMax ∧ readBuf d i = some (zext16 (d.buf.read i.toNat))) ∨
    ((d.outlen.toNat ≤ i.toNat ∨ Config.bufMax ≤ i.toNat) ∧ readBuf d i = none) := by
  unfold readBuf
  split
  · rename_i h
    exact .inl ⟨h.1, h.2, rfl⟩
  · exact .inr ⟨by omega, rfl⟩

end Sys2Proof.Machine
end

