-- ==== Sys2Proof/Laws/PerInstr.lean ====
section
/-! SUPPORT. Per instruction: the word of every instruction lies in its row of spec/opcode_table.json. -/

namespace Sys2Proof.Laws

theorem word_and (a c : Byte) (b d : Half) : (a ++ b : CmdWord) &&& (c ++ d) = (a &&& c) ++ (b &&& d) := by
  apply BitVec.eq_of_getLsbD_eq
  intro i _
  simp only [BitVec.getLsbD_and, getLsbD_word]
  split <;> rfl

theorem half_and (a c b d : Byte) : (a ++ b : Half) &&& (c ++ d) = (a &&& c) ++ (b &&& d) := by
  apply BitVec.eq_of_getLsbD_eq
  intro i _
  simp only [BitVec.getLsbD_and, getLsbD_half]
  split <;> rfl

theorem word_f16 (op : Byte) (imm : Half) : (op ++ imm : CmdWord) &&& 0xFF0000 = op ++ 0#16 := by
  rw [show (0xFF0000 : CmdWord) = 0xFF#8 ++ 0x0000#16 from by decide, word_and]
  rw [show (0xFF#8) = BitVec.allOnes 8 from rfl, BitVec.and_allOnes]
  simp

theorem word_f8 (op b : Byte) : (op ++ (0#8 ++ b : Half) : CmdWord) &&& 0xFFFF00 = op ++ 0#16 := by
  rw [show (0xFFFF00 : CmdWord) = 0xFF#8 ++ 0xFF00#16 from by decide, word_and,
    show (0xFF00#16) = 0xFF#8 ++ 0x00#8 from by decide, half_and]
  rw [show (0xFF#8) = BitVec.allOnes 8 from rfl, BitVec.and_allOnes]
  simp

/-- The word of the instruction matches its row: the fixed bits are as the table gives them. -/
def TableRow.Statement (i : Instr) : Prop := encode i &&& i.tableMask = i.tableMatch

namespace TableRow

theorem nop : Statement .nop := by unfold Statement; decide

theorem encStart (n : Half) : Statement (.encStart n) :=
  (word_f16 0x01 n).trans rfl

theorem encByte (b : Byte) : Statement (.encByte b) :=
  (word_f8 0x02 b).trans rfl

theorem encAbort : Statement .encAbort := by unfold Statement; decide

theorem decStart : Statement .decStart := by unfold Statement; decide

theorem decByte (w : Byte) : Statement (.decByte w) :=
  (word_f8 0x12 w).trans rfl

theorem decAbort : Statement .decAbort := by unfold Statement; decide

theorem rdReg (r : Byte) : Statement (.rdReg r) :=
  (word_f8 0x20 r).trans rfl

theorem rdBuf (i : Half) : Statement (.rdBuf i) :=
  (word_f16 0x21 i).trans rfl

theorem clrStatus : Statement .clrStatus := by unfold Statement; decide

theorem reset : Statement .reset := by unfold Statement; decide

end TableRow

end Sys2Proof.Laws
end

