-- ==== Sys2Proof/Laws/State.lean ====
section
/-! SUPPORT. One lemma per field per update of State, and per field of the decoder for the error entry and the arming
operation: later proofs unfold no record update. -/

namespace Sys2Proof.Machine

variable (s : State)

@[simp] theorem State.raiseSeqerr_params : (s.raiseSeqerr).params = s.params := rfl
@[simp] theorem State.raiseSeqerr_enc : (s.raiseSeqerr).enc = s.enc := rfl
@[simp] theorem State.raiseSeqerr_dec : (s.raiseSeqerr).dec = s.dec := rfl
@[simp] theorem State.raiseSeqerr_flags : (s.raiseSeqerr).flags = { s.flags with seqerr := true } := rfl
@[simp] theorem State.raiseSeqerr_tx : (s.raiseSeqerr).tx = s.tx := rfl
@[simp] theorem State.raiseSeqerr_rsp : (s.raiseSeqerr).rsp = s.rsp := rfl
@[simp] theorem State.raiseSeqerr_program : (s.raiseSeqerr).program = s.program := rfl
@[simp] theorem State.raiseSeqerr_pc : (s.raiseSeqerr).pc = s.pc := rfl

@[simp] theorem State.raiseIllegal_params : (s.raiseIllegal).params = s.params := rfl
@[simp] theorem State.raiseIllegal_enc : (s.raiseIllegal).enc = s.enc := rfl
@[simp] theorem State.raiseIllegal_dec : (s.raiseIllegal).dec = s.dec := rfl
@[simp] theorem State.raiseIllegal_flags : (s.raiseIllegal).flags = { s.flags with illegal := true } := rfl
@[simp] theorem State.raiseIllegal_tx : (s.raiseIllegal).tx = s.tx := rfl
@[simp] theorem State.raiseIllegal_rsp : (s.raiseIllegal).rsp = s.rsp := rfl
@[simp] theorem State.raiseIllegal_program : (s.raiseIllegal).program = s.program := rfl
@[simp] theorem State.raiseIllegal_pc : (s.raiseIllegal).pc = s.pc := rfl

@[simp] theorem State.raiseOversize_params : (s.raiseOversize).params = s.params := rfl
@[simp] theorem State.raiseOversize_enc : (s.raiseOversize).enc = s.enc := rfl
@[simp] theorem State.raiseOversize_dec : (s.raiseOversize).dec = s.dec := rfl
@[simp] theorem State.raiseOversize_flags : (s.raiseOversize).flags = { s.flags with oversize := true } := rfl
@[simp] theorem State.raiseOversize_tx : (s.raiseOversize).tx = s.tx := rfl
@[simp] theorem State.raiseOversize_rsp : (s.raiseOversize).rsp = s.rsp := rfl
@[simp] theorem State.raiseOversize_program : (s.raiseOversize).program = s.program := rfl
@[simp] theorem State.raiseOversize_pc : (s.raiseOversize).pc = s.pc := rfl

@[simp] theorem State.clearFlags_params : (s.clearFlags).params = s.params := rfl
@[simp] theorem State.clearFlags_enc : (s.clearFlags).enc = s.enc := rfl
@[simp] theorem State.clearFlags_dec : (s.clearFlags).dec = s.dec := rfl
@[simp] theorem State.clearFlags_flags : (s.clearFlags).flags = Flags.clear := rfl
@[simp] theorem State.clearFlags_tx : (s.clearFlags).tx = s.tx := rfl
@[simp] theorem State.clearFlags_rsp : (s.clearFlags).rsp = s.rsp := rfl
@[simp] theorem State.clearFlags_program : (s.clearFlags).program = s.program := rfl
@[simp] theorem State.clearFlags_pc : (s.clearFlags).pc = s.pc := rfl

@[simp] theorem State.emit_params (bs : List Byte) : (s.emit bs).params = s.params := rfl
@[simp] theorem State.emit_enc (bs : List Byte) : (s.emit bs).enc = s.enc := rfl
@[simp] theorem State.emit_dec (bs : List Byte) : (s.emit bs).dec = s.dec := rfl
@[simp] theorem State.emit_flags (bs : List Byte) : (s.emit bs).flags = s.flags := rfl
@[simp] theorem State.emit_tx (bs : List Byte) : (s.emit bs).tx = s.tx ++ bs := rfl
@[simp] theorem State.emit_rsp (bs : List Byte) : (s.emit bs).rsp = s.rsp := rfl
@[simp] theorem State.emit_program (bs : List Byte) : (s.emit bs).program = s.program := rfl
@[simp] theorem State.emit_pc (bs : List Byte) : (s.emit bs).pc = s.pc := rfl

@[simp] theorem State.escEmit_params (x : Byte) : (s.escEmit x).params = s.params := rfl
@[simp] theorem State.escEmit_enc (x : Byte) : (s.escEmit x).enc = s.enc := rfl
@[simp] theorem State.escEmit_dec (x : Byte) : (s.escEmit x).dec = s.dec := rfl
@[simp] theorem State.escEmit_flags (x : Byte) : (s.escEmit x).flags = s.flags := rfl
@[simp] theorem State.escEmit_tx (x : Byte) : (s.escEmit x).tx = s.tx ++ esc s.params x := rfl
@[simp] theorem State.escEmit_rsp (x : Byte) : (s.escEmit x).rsp = s.rsp := rfl
@[simp] theorem State.escEmit_program (x : Byte) : (s.escEmit x).program = s.program := rfl
@[simp] theorem State.escEmit_pc (x : Byte) : (s.escEmit x).pc = s.pc := rfl

@[simp] theorem State.respond_params (v : Half) : (s.respond v).params = s.params := rfl
@[simp] theorem State.respond_enc (v : Half) : (s.respond v).enc = s.enc := rfl
@[simp] theorem State.respond_dec (v : Half) : (s.respond v).dec = s.dec := rfl
@[simp] theorem State.respond_flags (v : Half) : (s.respond v).flags = s.flags := rfl
@[simp] theorem State.respond_tx (v : Half) : (s.respond v).tx = s.tx := rfl
@[simp] theorem State.respond_rsp (v : Half) : (s.respond v).rsp = s.rsp ++ [v] := rfl
@[simp] theorem State.respond_program (v : Half) : (s.respond v).program = s.program := rfl
@[simp] theorem State.respond_pc (v : Half) : (s.respond v).pc = s.pc := rfl

@[simp] theorem State.setEnc_params (e : Encoder) : (s.setEnc e).params = s.params := rfl
@[simp] theorem State.setEnc_enc (e : Encoder) : (s.setEnc e).enc = e := rfl
@[simp] theorem State.setEnc_dec (e : Encoder) : (s.setEnc e).dec = s.dec := rfl
@[simp] theorem State.setEnc_flags (e : Encoder) : (s.setEnc e).flags = s.flags := rfl
@[simp] theorem State.setEnc_tx (e : Encoder) : (s.setEnc e).tx = s.tx := rfl
@[simp] theorem State.setEnc_rsp (e : Encoder) : (s.setEnc e).rsp = s.rsp := rfl
@[simp] theorem State.setEnc_program (e : Encoder) : (s.setEnc e).program = s.program := rfl
@[simp] theorem State.setEnc_pc (e : Encoder) : (s.setEnc e).pc = s.pc := rfl

@[simp] theorem State.setDec_params (d : Decoder) : (s.setDec d).params = s.params := rfl
@[simp] theorem State.setDec_enc (d : Decoder) : (s.setDec d).enc = s.enc := rfl
@[simp] theorem State.setDec_dec (d : Decoder) : (s.setDec d).dec = d := rfl
@[simp] theorem State.setDec_flags (d : Decoder) : (s.setDec d).flags = s.flags := rfl
@[simp] theorem State.setDec_tx (d : Decoder) : (s.setDec d).tx = s.tx := rfl
@[simp] theorem State.setDec_rsp (d : Decoder) : (s.setDec d).rsp = s.rsp := rfl
@[simp] theorem State.setDec_program (d : Decoder) : (s.setDec d).program = s.program := rfl
@[simp] theorem State.setDec_pc (d : Decoder) : (s.setDec d).pc = s.pc := rfl

@[simp] theorem State.advance_params : (s.advance).params = s.params := rfl
@[simp] theorem State.advance_enc : (s.advance).enc = s.enc := rfl
@[simp] theorem State.advance_dec : (s.advance).dec = s.dec := rfl
@[simp] theorem State.advance_flags : (s.advance).flags = s.flags := rfl
@[simp] theorem State.advance_tx : (s.advance).tx = s.tx := rfl
@[simp] theorem State.advance_rsp : (s.advance).rsp = s.rsp := rfl
@[simp] theorem State.advance_program : (s.advance).program = s.program := rfl
@[simp] theorem State.advance_pc : (s.advance).pc = s.pc + 1 := rfl

variable (d : Decoder) (e : DecodeError)

@[simp] theorem Decoder.fail_phase : (d.fail e).phase = .error := rfl
@[simp] theorem Decoder.fail_esc : (d.fail e).esc = false := rfl
@[simp] theorem Decoder.fail_err : (d.fail e).err = some e := rfl
@[simp] theorem Decoder.fail_m0 : (d.fail e).m0 = d.m0 := rfl
@[simp] theorem Decoder.fail_len : (d.fail e).len = d.len := rfl
@[simp] theorem Decoder.fail_rem : (d.fail e).rem = d.rem := rfl
@[simp] theorem Decoder.fail_acc : (d.fail e).acc = d.acc := rfl
@[simp] theorem Decoder.fail_outlen : (d.fail e).outlen = 0 := rfl
@[simp] theorem Decoder.fail_buf : (d.fail e).buf = d.buf := rfl

@[simp] theorem Decoder.arm_phase : d.arm.phase = .mark0 := rfl
@[simp] theorem Decoder.arm_esc : d.arm.esc = false := rfl
@[simp] theorem Decoder.arm_err : d.arm.err = none := rfl
@[simp] theorem Decoder.arm_m0 : d.arm.m0 = 0 := rfl
@[simp] theorem Decoder.arm_len : d.arm.len = 0 := rfl
@[simp] theorem Decoder.arm_rem : d.arm.rem = 0 := rfl
@[simp] theorem Decoder.arm_acc : d.arm.acc = 0 := rfl
@[simp] theorem Decoder.arm_outlen : d.arm.outlen = 0 := rfl
@[simp] theorem Decoder.arm_buf : d.arm.buf = d.buf := rfl

end Sys2Proof.Machine
end

