-- ==== Sys2Proof/Laws/Status.lean ====
section
/-! SUPPORT. The STATUS word as a number: each field at its place value (spec/10_state.md R38). -/

namespace Sys2Proof.Machine

theorem toNat_append_cast {m n k : Nat} (x : BitVec m) (y : BitVec n) (h : m + n = k) :
    ((x ++ y).cast h).toNat = x.toNat * 2 ^ n + y.toNat := by
  subst h
  rw [BitVec.cast_eq, BitVec.toNat_append, ← Nat.shiftLeft_add_eq_or_of_lt y.isLt, Nat.shiftLeft_eq]

theorem toNat_append_ofBool {m k : Nat} (x : BitVec m) (b : Bool) (h : m + 1 = k) :
    ((x ++ BitVec.ofBool b).cast h).toNat = x.toNat * 2 + b.toNat := by
  rw [toNat_append_cast]
  cases b <;> rfl

theorem statusWord_toNat (s : State) : (statusWord s).toNat =
    ((((((s.flags.oversize.toNat * 2 + s.flags.illegal.toNat) * 2 + s.flags.seqerr.toNat) * 8
      + (errCode s.dec.err).toNat) * 2 + s.dec.esc.toNat) * 8 + s.dec.phase.code.toNat) * 4) * 4
      + s.enc.phase.code.toNat := by
  unfold statusWord
  refine (toNat_append_cast _ _ rfl).trans (congrArg (· * 4 + _) ?_)
  refine (toNat_append_cast _ _ rfl).trans (congrArg (· * 4) ?_)
  refine (toNat_append_cast _ _ rfl).trans (congrArg (· * 8 + _) ?_)
  refine (toNat_append_ofBool _ _ rfl).trans (congrArg (· * 2 + _) ?_)
  refine (toNat_append_cast _ _ rfl).trans (congrArg (· * 8 + _) ?_)
  refine (toNat_append_ofBool _ _ rfl).trans (congrArg (· * 2 + _) ?_)
  refine (toNat_append_ofBool _ _ rfl).trans (congrArg (· * 2 + _) ?_)
  exact (toNat_append_ofBool _ _ rfl).trans (by simp)

end Sys2Proof.Machine
end

