-- ==== Sys2Proof/Laws/Step.lean ====
section
/-! SUPPORT. For each shared operation, the acceptance of a wire byte, a command and a step: once, everything it can
do. -/

namespace Sys2Proof.Machine

/-- Everything `Settle` can do (R177). -/
theorem Decoder.settle_cases (d : Decoder) :
    (d.phase = .lenHi ∧ d.settle = { d with phase := .lenLo }) ∨
    (d.phase = .lenLo ∧ d.len = 0 ∧ d.settle = d.fail .zeroLength) ∨
    (d.phase = .lenLo ∧ d.len ≠ 0 ∧ d.settle = { d with rem := d.len, acc := 0, outlen := 0, phase := .body }) ∨
    (d.phase = .body ∧ d.rem = 0 ∧ d.acc = 0 ∧ d.settle = { d with phase := .done }) ∨
    (d.phase = .body ∧ d.rem = 0 ∧ d.acc ≠ 0 ∧ d.settle = d.fail .badChecksum) ∨
    (d.phase = .body ∧ d.rem ≠ 0 ∧ d.settle = d) ∨
    (d.phase ≠ .lenHi ∧ d.phase ≠ .lenLo ∧ d.phase ≠ .body ∧ d.settle = d) := by
  by_cases hl : d.len = 0
  · cases hp : d.phase <;> by_cases hr : d.rem = 0 <;> by_cases ha : d.acc = 0 <;>
      simp_all [Decoder.settle]
  · cases hp : d.phase <;> by_cases hr : d.rem = 0 <;> by_cases ha : d.acc = 0 <;>
      simp_all [Decoder.settle]

/-- Everything a logical byte can do (R175). -/
theorem Decoder.logical_cases (p : Params) (w : Byte) (d : Decoder) :
    (w = p.markerHi ∧ d.logical p w = { d with esc := true }) ∨ (w ≠ p.markerHi ∧ d.logical p w = d.settle) := by
  unfold Decoder.logical
  split <;> simp_all

/-- Everything a filler can do (R176). -/
theorem Decoder.filler_cases (w : Byte) (d : Decoder) :
    (w ≠ 0 ∧ d.filler w = d.fail .badEscape) ∨ (w = 0 ∧ d.filler w = Decoder.settle { d with esc := false }) := by
  unfold Decoder.filler Config.escFill
  split <;> simp_all

theorem Decoder.storeIndex_eq_some {d : Decoder} {i : Nat} (h : d.storeIndex = some i) :
    d.phase = .body ∧ d.esc = false ∧ 2 ≤ d.rem.toNat ∧ i = d.outlen.toNat := by
  unfold Decoder.storeIndex at h
  split at h <;> simp_all

theorem Decoder.storeIndex_eq_none {d : Decoder} (h : d.storeIndex = none) (hp : d.phase = .body)
    (he : d.esc = false) : d.rem.toNat < 2 := by
  simp only [Decoder.storeIndex, hp, he] at h
  simpa using h

/-- The store of a BODY byte hits an entry of `DEC_BUF` (R175, R119). -/
theorem Decoder.storeIndex_lt {d : Decoder} (hd : d.Inv) {i : Nat} (h : d.storeIndex = some i) : i < Config.bufMax := by
  obtain ⟨hp, -, hr, rfl⟩ := Decoder.storeIndex_eq_some h
  have := hd.bodyCount hp (by omega)
  have := d.len.isLt
  simp only [Config.bufMax]
  omega

/-- Everything the acceptance of a wire byte can answer (R172). -/
theorem Decoder.accept_cases (p : Params) (w : Byte) (d : Decoder) :
    (d.esc = true ∧ d.accept p w = .ok (d.filler w)) ∨
    (d.esc = false ∧ (∀ i, d.storeIndex = some i → i < Config.bufMax) ∧ d.accept p w = .ok (d.wireByte p w)) ∨
    (∃ i, d.storeIndex = some i ∧ Config.bufMax ≤ i ∧ d.accept p w = .error (.noSuchDecBufEntry i)) := by
  unfold Decoder.accept
  cases he : d.esc
  · cases hi : d.storeIndex with
    | none => simp
    | some i =>
      by_cases h : i < Config.bufMax
      · simp [h]
      · simp [h, Nat.le_of_not_lt h]
  · simp

/-- When a store would hit an entry that exists, the byte is accepted. -/
theorem Decoder.accept_ok (p : Params) (w : Byte) {d : Decoder}
    (h : ∀ i, d.storeIndex = some i → i < Config.bufMax) :
    d.accept p w = .ok (if d.esc then d.filler w else d.wireByte p w) := by
  rcases d.accept_cases p w with ⟨he, ha⟩ | ⟨he, -, ha⟩ | ⟨i, hi, hb, -⟩
  · simp [he, ha]
  · simp [he, ha]
  · exact absurd (h i hi) (Nat.not_lt.mpr hb)

/-- Everything a `DEC_BYTE` that goes on can do (R172, R178). -/
theorem execDecByte_cases {w : Byte} {s t : State} (h : exec (.decByte w) s = .next t) :
    (s.dec.phase.active = false ∧ t = s.raiseSeqerr) ∨
    (s.dec.phase.active = true ∧ ∃ d, s.dec.accept s.params w = .ok d ∧ t = s.setDec d) := by
  simp only [exec, execDecByte] at h
  cases ha : s.dec.phase.active
  · simp only [ha] at h
    cases h
    simp
  · simp only [ha] at h
    cases hd : s.dec.accept s.params w with
    | ok d =>
      simp only [hd] at h
      cases h
      simp
    | error f =>
      simp only [hd] at h
      cases h

/-- Everything a command that goes on can do, command by command: its guards and its whole next state. -/
theorem exec_cases {i : Instr} {s t : State} (h : exec i s = .next t) :
    (i = .nop ∧ t = s) ∨
    (∃ n, i = .encStart n ∧
      ((s.enc.phase = .body ∧ t = s.raiseSeqerr) ∨
        (s.enc.phase ≠ .body ∧ Config.bufMax < n.toNat ∧ t = s.raiseOversize) ∨
        (s.enc.phase ≠ .body ∧ n.toNat ≤ Config.bufMax ∧ n ≠ 0 ∧
          t = (((s.emit [s.params.markerHi, s.params.markerLo]).escEmit (hiByte (n + 1))).escEmit
            (loByte (n + 1))).setEnc ⟨.body, n + 1, n, 0⟩) ∨
        (s.enc.phase ≠ .body ∧ n = 0 ∧
          t = ((((s.emit [s.params.markerHi, s.params.markerLo]).escEmit (hiByte (n + 1))).escEmit
            (loByte (n + 1))).escEmit 0).setEnc ⟨.done, n + 1, n, 0⟩))) ∨
    (∃ b, i = .encByte b ∧
      ((s.enc.phase ≠ .body ∧ t = s.raiseSeqerr) ∨
        (s.enc.phase = .body ∧ s.enc.rem - 1 = 0 ∧
          t = ((s.escEmit b).escEmit (accumulate s.enc.acc b)).setEnc
            ⟨.done, s.enc.len, s.enc.rem - 1, accumulate s.enc.acc b⟩) ∨
        (s.enc.phase = .body ∧ s.enc.rem - 1 ≠ 0 ∧
          t = (s.escEmit b).setEnc ⟨.body, s.enc.len, s.enc.rem - 1, accumulate s.enc.acc b⟩))) ∨
    (i = .encAbort ∧ t = s.setEnc { s.enc with phase := .idle }) ∨
    (i = .decStart ∧ t = s.setDec s.dec.arm) ∨
    (∃ w, i = .decByte w ∧
      ((s.dec.phase.active = false ∧ t = s.raiseSeqerr) ∨
        (s.dec.phase.active = true ∧ ∃ d, s.dec.accept s.params w = .ok d ∧ t = s.setDec d))) ∨
    (i = .decAbort ∧
      ((s.dec.phase.active = false ∧ t = s.raiseSeqerr) ∨
        (s.dec.phase.active = true ∧ t = s.setDec (s.dec.fail .timeout)))) ∨
    (∃ r, i = .rdReg r ∧
      ((∃ v, readReg s r = some v ∧ t = s.respond v) ∨ (readReg s r = none ∧ t = s.raiseIllegal.respond 0))) ∨
    (∃ k, i = .rdBuf k ∧
      ((∃ v, readBuf s.dec k = some v ∧ t = s.respond v) ∨ (readBuf s.dec k = none ∧ t = s.raiseIllegal.respond 0))) ∨
    (i = .clrStatus ∧ t = s.clearFlags) ∨
    (i = .reset ∧ t = { s with enc := Encoder.reset, dec := Decoder.reset, flags := Flags.clear }) := by
  cases i with
  | nop => cases h; simp
  | encStart n =>
    simp only [exec, execEncStart] at h
    cases h
    refine .inr (.inl ⟨n, rfl, ?_⟩)
    by_cases h1 : s.enc.phase = .body
    · rw [if_pos h1]
      exact .inl ⟨h1, rfl⟩
    · rw [if_neg h1]
      by_cases h2 : n.toNat > Config.bufMax
      · rw [if_pos h2]
        exact .inr (.inl ⟨h1, h2, rfl⟩)
      · rw [if_neg h2]
        by_cases h3 : n = 0
        · rw [if_pos h3]
          exact .inr (.inr (.inr ⟨h1, h3, rfl⟩))
        · rw [if_neg h3]
          exact .inr (.inr (.inl ⟨h1, Nat.le_of_not_lt h2, h3, rfl⟩))
  | encByte b =>
    simp only [exec, execEncByte] at h
    cases h
    refine .inr (.inr (.inl ⟨b, rfl, ?_⟩))
    by_cases h1 : s.enc.phase = .body
    · rw [if_neg (not_not_intro h1)]
      by_cases h2 : s.enc.rem - 1 = 0
      · rw [if_pos h2]
        exact .inr (.inl ⟨h1, h2, rfl⟩)
      · rw [if_neg h2]
        exact .inr (.inr ⟨h1, h2, rfl⟩)
    · rw [if_pos h1]
      exact .inl ⟨h1, rfl⟩
  | encAbort => cases h; simp
  | decStart => cases h; simp
  | decByte w => simpa using execDecByte_cases h
  | decAbort =>
    simp only [exec, execDecAbort] at h
    cases h
    cases s.dec.phase.active <;> simp
  | rdReg r =>
    simp only [exec, execRdReg, State.respondOrIllegal] at h
    cases h
    cases hv : readReg s r <;> simp [hv]
  | rdBuf k =>
    simp only [exec, execRdBuf, State.respondOrIllegal] at h
    cases h
    cases hv : readBuf s.dec k <;> simp [hv]
  | clrStatus => cases h; simp
  | reset => cases h; simp

/-- A command writes neither the parameters nor the host's program and index. -/
theorem exec_keeps_host {i : Instr} {s t : State} (h : exec i s = .next t) :
    t.params = s.params ∧ t.program = s.program ∧ t.pc = s.pc := by
  rcases exec_cases h with ⟨-, rfl⟩ | ⟨n, -, ⟨-, rfl⟩ | ⟨-, -, rfl⟩ | ⟨-, -, -, rfl⟩ | ⟨-, -, rfl⟩⟩ |
    ⟨b, -, ⟨-, rfl⟩ | ⟨-, -, rfl⟩ | ⟨-, -, rfl⟩⟩ | ⟨-, rfl⟩ | ⟨-, rfl⟩ | ⟨w, -, ⟨-, rfl⟩ | ⟨-, d, -, rfl⟩⟩ |
    ⟨-, ⟨-, rfl⟩ | ⟨-, rfl⟩⟩ | ⟨r, -, ⟨v, -, rfl⟩ | ⟨-, rfl⟩⟩ | ⟨k, -, ⟨v, -, rfl⟩ | ⟨-, rfl⟩⟩ | ⟨-, rfl⟩ | ⟨-, rfl⟩
  all_goals exact ⟨rfl, rfl, rfl⟩

/-- Everything a step that goes on can do (R21, R60, R94). -/
theorem step_cases {s t : State} (h : step s = .next t) :
    (s.presented = none ∧ t = s) ∨
    (∃ w r, s.presented = some w ∧ decode w = .error r ∧ t = (illegalCommand s).advance) ∨
    (∃ w i u, s.presented = some w ∧ decode w = .ok i ∧ exec i s = .next u ∧ t = u.advance) := by
  simp only [step, stepPort] at h
  cases hp : s.presented with
  | none =>
    simp only [hp] at h
    cases h
    simp
  | some w =>
    simp only [hp, acceptWord] at h
    cases hd : decode w with
    | error r =>
      simp only [hd, onNext] at h
      cases h
      exact .inr (.inl ⟨w, r, rfl, hd, rfl⟩)
    | ok i =>
      simp only [hd] at h
      cases hu : exec i s with
      | next u =>
        simp only [hu, onNext] at h
        cases h
        exact .inr (.inr ⟨w, i, u, rfl, hd, hu, rfl⟩)
      | fault f => simp [hu, onNext] at h
      | refused r => simp [hu, onNext] at h

/-- The word placed by the host's fetch helper is the one presented next. -/
theorem presented_withFetchWord (s : State) (nbits w : Nat) :
    (s.withFetchWord nbits w).presented = some (BitVec.ofNat 24 (w % 2 ^ nbits)) := by
  have hl : (s.program.take s.pc ++ List.replicate (s.pc - s.program.length) (0 : CmdWord)).length = s.pc := by
    simp
    omega
  simp only [State.presented, State.withFetchWord, placeWord]
  rw [List.append_assoc, List.getElem?_append_right (by omega), hl]
  simp

@[simp] theorem execAll_nil (s : State) : execAll [] s = .next s := rfl

@[simp] theorem execAll_cons (i : Instr) (is : List Instr) (s : State) :
    execAll (i :: is) s = andThen (exec i s) (execAll is) := rfl

@[simp] theorem andThen_next (s : State) (f : State → Host.Outcome State Fault Refusal) :
    andThen (.next s) f = f s := rfl

theorem execAll_append (is js : List Instr) (s : State) :
    execAll (is ++ js) s = andThen (execAll is s) (execAll js) := by
  induction is generalizing s with
  | nil => rfl
  | cons i is ih =>
    simp only [List.cons_append, execAll_cons]
    cases exec i s with
    | next t => exact ih t
    | fault f => rfl
    | refused r => rfl

end Sys2Proof.Machine
end

