-- ==== Sys2Proof/Tests/Slice0.lean ====
section
/-! SUPPORT. Tests. Expected values come from the spec: the vectors of spec/95_test_vectors.md (cited by their number)
with its illustrative marker bytes 0xAA and 0xBB (spec/00_scope.md R8), the worked examples of the rules, or a word
written out from the encoding. The last part holds the witnesses: concrete states and operands that meet the hypotheses
of each statement. -/

namespace Sys2Proof.Tests

open Sys2Proof.Machine

/-! ## Helpers -/

/-- The illustrative instance of R8. -/
def params : Params := ⟨0xAA, 0xBB⟩

/-- The reset state of that instance. -/
def demo : State := State.resetOf params

/-- That state with the given encoder registers. -/
def withEnc (phase : EncPhase) (len rem : Half) (acc : Byte) : State := { demo with enc := ⟨phase, len, rem, acc⟩ }

/-- That state with the given decoder. -/
def withDec (d : Decoder) : State := { demo with dec := d }

/-- A decoder armed and then in the given phase. -/
def decIn (phase : DecPhase) : Decoder := { Decoder.reset with phase := phase }

/-- A decoder in BODY, of a frame with `len` in its length field, with these counters, pending bit and buffer. -/
def decBody (len rem : Half) (acc : Byte) (esc : Bool) (buf : List Byte) : Decoder :=
  { Decoder.reset with
    phase := .body, len := len, rem := rem, acc := acc, esc := esc, outlen := BitVec.ofNat 16 buf.length
    buf := buf.zipIdx.map (fun c => (c.2, c.1)) }

/-- A decoder that has rejected a frame. -/
def decError (e : DecodeError) : Decoder := { Decoder.reset with phase := .error, err := some e }

/-- The decoder after vector D1: DONE with buffer `01 02`. -/
def decDone : Decoder := { decBody 3 0 0 false [0x01, 0x02] with phase := .done }

/-- The next state, if there is one. -/
def next? (o : Host.Outcome State Fault Refusal) : Option State :=
  match o with
  | .next s => some s
  | .fault _ => none
  | .refused _ => none

/-! ## Well-formedness refuses each kind of ill-formed command (R91, R97) -/

theorem test_wf_f0_with_operand : Command.wellFormed ⟨0x00, .f0, some 0⟩ = false := by decide

theorem test_wf_f8_without_operand : Command.wellFormed ⟨0x02, .f8, none⟩ = false := by decide

theorem test_wf_f8_out_of_range : Command.wellFormed ⟨0x02, .f8, some 256⟩ = false := by decide

theorem test_wf_f16_without_operand : Command.wellFormed ⟨0x01, .f16, none⟩ = false := by decide

theorem test_wf_f16_out_of_range : Command.wellFormed ⟨0x01, .f16, some 65536⟩ = false := by decide

theorem test_wf_accepts : (Instr.encStart 0xFFFF).wellFormed = true ∧ (Instr.rdReg 0xFF).wellFormed = true ∧
    Instr.nop.wellFormed = true := by decide

/-! ## Words written out bit by bit from R91 and R93: OP above IMM -/

theorem test_decode_nop : decode 0b00000000_0000000000000000 = .ok .nop := rfl

theorem test_decode_encStart : decode 0b00000001_1010100111111111 = .ok (.encStart 0xA9FF) := rfl

theorem test_decode_encByte : decode 0b00000010_00000000_10101010 = .ok (.encByte 0xAA) := rfl

theorem test_decode_encAbort : decode 0b00000011_0000000000000000 = .ok .encAbort := rfl

theorem test_decode_decStart : decode 0b00010001_0000000000000000 = .ok .decStart := rfl

theorem test_decode_decByte : decode 0b00010010_00000000_01010101 = .ok (.decByte 0x55) := rfl

theorem test_decode_decAbort : decode 0b00010011_0000000000000000 = .ok .decAbort := rfl

theorem test_decode_rdReg : decode 0b00100000_00000000_00001001 = .ok (.rdReg 0x09) := rfl

theorem test_decode_rdBuf : decode 0b00100001_1111111111111110 = .ok (.rdBuf 0xFFFE) := rfl

theorem test_decode_clrStatus : decode 0b00110000_0000000000000000 = .ok .clrStatus := rfl

theorem test_decode_reset : decode 0b00111111_0000000000000000 = .ok .reset := rfl

/-- Vectors C3, C4 and C5: a reserved opcode and two nonzero must-be-zero fields. -/
theorem test_decode_illegal : decode 0x040000 = .error (.reservedOpcode 0x04) ∧
    decode 0x020100 = .error (.mustBeZero 0x02) ∧ decode 0x3F0001 = .error (.mustBeZero 0x3F) := ⟨rfl, rfl, rfl⟩

/-- The words of programs P1 and P5. -/
theorem test_encode_words : encode (.encStart 2) = 0x010002 ∧ encode (.encByte 0x02) = 0x020002 ∧
    encode (.rdReg 0x01) = 0x200001 ∧ encode (.encStart 0xFFFF) = 0x01FFFF := by decide

theorem test_table_word : decodeTableWord 24 0x010002 = some (.encStart 2) ∧ decodeTableWord 24 0x040000 = none := by
  decide

/-! ## Level 1 (L1-1, L2-P, E4, E5, D10, D20) -/

theorem test_foldXor : foldXor [0x12, 0x34, 0x56] = 0x70 := by decide

theorem test_encodeFrame : encodeFrame params [0x01, 0xAA, 0x02] =
    some [0xAA, 0xBB, 0x00, 0x04, 0x01, 0xAA, 0x00, 0x02, 0xA9] := by decide

theorem test_encodeFrame_escaped_checksum : encodeFrame params [0x01, 0xAB] =
    some [0xAA, 0xBB, 0x00, 0x03, 0x01, 0xAB, 0xAA, 0x00] := by decide

theorem test_decodeFrame : decodeFrame params [0xAA, 0xBB, 0x00, 0x03, 0x01, 0x02, 0x03, 0x55] =
    .got [0x01, 0x02] [0x55] := by decide

theorem test_decodeFrame_bad_escape : decodeFrame params [0xAA, 0xBB, 0x00, 0x02, 0xAA, 0x01] =
    .failed .badEscape [] := by decide

theorem test_decodeFrame_equal_marker : decodeFrame ⟨0x7E, 0x7E⟩ [0x7E, 0x7E, 0x00, 0x01, 0x00] = .got [] [] := by
  decide

/-! ## Assembler (R97, R98) -/

theorem test_assembler_word : assembleLine params "ENC_START 2 ; two bytes".toList = .ok [0x010002] := by decide

theorem test_assembler_frame : assembleLine params "DEC_FRAME H, 0x05".toList =
    .ok [0x110000, 0x1200AA, 0x120005] := by decide

/-- Program P2, row 9. -/
theorem test_assembler_xor : assembleLine params "DEC_BYTE H^0x03".toList = .ok [0x1200A9] := by decide

theorem test_assembler_refuses : assembleLine params "ENC_BYTE 256".toList = .error .badCommand := by decide

/-! ## One step of each instruction -/

/-- Vector C9. -/
theorem test_nop : next? (exec .nop (withDec decDone)) = some (withDec decDone) := by decide

/-- Vector E2, after `ENC_START 2`; and E7, the length's high byte escaped. -/
theorem test_encStart : (next? (exec (.encStart 2) demo)).map (fun s => (s.tx, s.enc)) =
      some ([0xAA, 0xBB, 0x00, 0x03], ⟨.body, 3, 2, 0x00⟩) ∧
    (next? (exec (.encStart 0xA9FF) demo)).map (·.tx) = some [0xAA, 0xBB, 0xAA, 0x00, 0x00] := by decide

/-- Vector E9. -/
theorem test_encStart_oversize : (next? (exec (.encStart 0xFFFF) demo)).map (fun s => (s.tx, statusWord s)) =
    some ([], 0x2000) := by decide

/-- Vector E5: the checksum equals `MARKER_HI`. -/
theorem test_encByte : (next? (exec (.encByte 0xAB) (withEnc .body 3 1 0x01))).map (fun s => (s.tx, s.enc)) =
    some ([0xAB, 0xAA, 0x00], ⟨.done, 3, 0, 0xAA⟩) := by decide

/-- Vector E10. -/
theorem test_encByte_idle : (next? (exec (.encByte 0x01) demo)).map (fun s => (s.tx, statusWord s)) =
    some ([], 0x0800) := by decide

/-- Vector E12, after its last command. -/
theorem test_encAbort : (next? (exec .encAbort (withEnc .body 4 2 0x10))).map (·.enc) =
    some ⟨.idle, 4, 2, 0x10⟩ := by decide

/-- The worked example of R171. -/
theorem test_decStart : (next? (exec .decStart (withDec decDone))).map (fun s => (statusWord s, s.dec.outlen)) =
    some (0x0010, 0) := by decide

/-- Vector D4, its last byte. -/
theorem test_decByte_checksum : (next? (exec (.decByte 0x05) (withDec (decBody 1 1 0x00 false [])))).map
    (fun s => (s.dec.acc, statusWord s)) = some (0x05, 0x0370) := by decide

/-- Vector D11, its last byte: the escape error comes before the checksum. -/
theorem test_decByte_escape : (next? (exec (.decByte 0x07) (withDec (decBody 3 0 0x00 true [0x01, 0xAB])))).map
    (·.dec.err) = some (some .badEscape) := by decide

/-- Vector D17, its abort. -/
theorem test_decAbort : (next? (exec .decAbort (withDec (decBody 3 2 0x01 false [0x01])))).map
    (fun s => (statusWord s, s.dec.outlen)) = some (0x0570, 0) := by decide

/-- Vector D18. -/
theorem test_decAbort_done : (next? (exec .decAbort (withDec decDone))).map statusWord = some 0x0860 := by decide

/-- Vector C8. -/
theorem test_rdReg : (next? (exec (.rdReg 0x09) demo)).map (·.rsp) = some [0xAABB] := by decide

/-- Vector C2. -/
theorem test_rdReg_reserved : (next? (exec (.rdReg 0x0A) demo)).map (fun s => (s.rsp, statusWord s)) =
    some ([0x0000], 0x1000) := by decide

/-- Vector C7, its second and its third read. -/
theorem test_rdBuf : (next? (exec (.rdBuf 1) (withDec decDone))).map (·.rsp) = some [0x0002] ∧
    (next? (exec (.rdBuf 2) (withDec decDone))).map (fun s => (s.rsp, s.flags.illegal)) = some ([0x0000], true) := by
  decide

/-- Vector C6: the flags go, the decoder's error stays. -/
theorem test_clrStatus : (next? (exec .clrStatus { withDec (decError .badChecksum) with
    flags := ⟨true, true, true⟩ })).map statusWord = some 0x0370 := by decide

/-- Vector C1 and R241: TX stays. -/
theorem test_reset : (next? (exec .reset { withDec decDone with tx := [0xAA] })).map (fun s => (statusWord s, s.tx)) =
    some (0x0000, [0xAA]) := by decide

/-- Vector C10. -/
theorem test_statusWord : statusWord { withEnc .body 3 1 0x01 with
    dec := decError .badChecksum, flags := ⟨true, false, false⟩ } = 0x0B71 := by decide

/-- The first command after reset. -/
theorem test_step_first : (next? (step (State.reset.withFetchWord 24 0x010002))).map (fun s => (s.enc.len, s.pc)) =
    some (3, 1) := rfl

/-- Vector C5: a malformed RESET is illegal and resets nothing. -/
theorem test_step_illegal : (next? (step ((withDec decDone).withFetchWord 24 0x3F0001))).map
    (fun s => (statusWord s, s.dec.outlen)) = some (0x1060, 2) := by decide

/-! ## Witnesses: states that have the invariants -/

theorem inv_demo : demo.Inv :=
  ⟨by decide, by constructor <;> decide, by constructor <;> decide, by decide⟩

theorem inv_done : (withDec decDone).Inv :=
  ⟨by decide, by constructor <;> decide, by constructor <;> decide, by decide⟩

theorem inv_error : (withDec (decError .zeroLength)).Inv :=
  ⟨by decide, by constructor <;> decide, by constructor <;> decide, by decide⟩

theorem inv_body : (withDec (decBody 3 2 0x01 false [0x01])).Inv :=
  ⟨by decide, by constructor <;> decide, by constructor <;> decide, by decide⟩

/-! ## Witnesses: for each statement, concrete states and operands that meet its hypotheses, clause by clause -/

theorem witness_XorAccumulatorLaws :
    List.Perm [0x01#8, 0x02#8] [0x02#8, 0x01#8] ∧ (0 < [0x01#8].length ∧ 7 < 8) ∧
      (∀ i ∈ [0, 1], i < [0x01#8, 0x02#8].length) ∧ [0, 1].Nodup ∧ [0, 1].length % 2 = 0 := by decide

theorem witness_EscapeLaws : params.Legal ∧ (escAll params [0xAA])[0]? = some params.markerHi := by decide

theorem witness_UnescapingRead : (0x01 : Byte) ≠ params.markerHi ∧ (0x05 : Byte) ≠ 0x00 ∧ params.Legal := by decide

theorem witness_EncodeDomainAndLength :
    65534 < (List.replicate 65535 (0x00 : Byte)).length ∧ (List.replicate 65534 (0x00 : Byte)).length ≤ 65534 := by
  simp only [List.length_replicate]
  decide

theorem witness_EncodedFrameEscapesMarkerHi : ∃ wire, params.Legal ∧ encodeFrame params [0xAA] = some wire ∧
    2 ≤ 4 ∧ wire[4]? = some params.markerHi := ⟨_, by decide, rfl, by decide, by decide⟩

theorem witness_DecodeComparesMarkerLiterally : ¬((0xAA : Byte) = params.markerHi ∧ (0xAA : Byte) = params.markerLo) := by
  decide

theorem witness_DecodeInvertsEncode : ∃ wire, encodeFrame params [0xAA] = some wire := ⟨_, rfl⟩

theorem witness_DecodeAcceptsExactlyEncodedFrames :
    decodeFrame params [0xAA, 0xBB, 0x00, 0x01, 0x00, 0x77] = .got [] [0x77] ∧
      (∃ wire, encodeFrame params [] = some wire ∧ [0xAA, 0xBB, 0x00, 0x01, 0x00, 0x77] = wire ++ [0x77]) ∧
      decodeFrame params [0xAA, 0xBB, 0x00, 0x01, 0x00] = .got [] [] := ⟨by decide, ⟨_, rfl, rfl⟩, by decide⟩

theorem witness_DecodeConsumesNoByteBeyondItsOutcome :
    decodeFrame params [0x00, 0xBB, 0x77] = .failed .badMarker [0x77] ∧
      decodeFrame params [0xAA, 0xBB, 0xAA, 0x05] = .failed .badEscape [] ∧
      decodeFrame params [0xAA, 0xBB, 0x00, 0x01, 0x05] = .failed .badChecksum [] ∧
      decodeFrame params [0xAA, 0xBB, 0x00, 0x00] = .failed .zeroLength [] ∧
      decodeFrame params [0xAA, 0xBB, 0x00, 0x01, 0x00] = .got [] [] := by decide

theorem witness_DecodedFrameHasZeroXor :
    decodeFrame params [0xAA, 0xBB, 0x00, 0x03, 0x01, 0x02, 0x03] = .got [0x01, 0x02] [] := by decide

theorem witness_EncodeOfDecodeIsTheWord : decode 0x21FFFF = .ok (.rdBuf 0xFFFF) := rfl

/-- The ends of each reserved range, and both kinds of nonzero must-be-zero field at their least value. -/
theorem witness_IllegalWordsSetIllegalAndNothingElse :
    [0x04, 0x10, 0x14, 0x1F, 0x22, 0x2F, 0x31, 0x3E, 0x40, 0xFF].all (fun op =>
        (decode (BitVec.ofNat 24 (op * 65536))).toOption.isNone) = true ∧
      [0x000001, 0x030001, 0x110001, 0x130001, 0x300001, 0x3F0001, 0x020100, 0x120100, 0x200100].all (fun w =>
        (decode w).toOption.isNone) = true := by decide

theorem witness_AssemblerWordsAndRefusals : commandWord ⟨0x02, .f8, some 255⟩ = some 0x0200FF ∧
    commandWord ⟨0x02, .f8, some 256⟩ = none ∧ commandWord ⟨0x01, .f16, some 65535⟩ = some 0x01FFFF ∧
    commandWord ⟨0x01, .f16, some 65536⟩ = none := by decide

theorem witness_PseudoInstructionsExpand : ([0x01, 0x02] : List Byte).length < 65536 := by decide

/-- The command goes on; and one that faults, in a state that no run reaches. -/
theorem witness_StepRunsThePresentedCommand :
    (∃ (s t : State), s.program[s.pc]? = some 0x010002 ∧ decode 0x010002 = .ok (.encStart 2) ∧ exec (.encStart 2) s = .next t) ∧
    ∃ (s : State) (f : Fault), s.program[s.pc]? = some 0x120001 ∧ decode 0x120001 = .ok (.decByte 1) ∧ exec (.decByte 1) s = .fault f :=
  ⟨⟨{ demo with program := [0x010002] }, _, rfl, rfl, rfl⟩,
    ⟨{ withDec { decIn .body with rem := 2, outlen := 0xFFFF } with program := [0x120001] },
      .noSuchDecBufEntry 65535, rfl, rfl, rfl⟩⟩

theorem witness_StepOnIllegalWordAndAtTheEnd :
    (∃ (s : State) (r : IllegalWord), s.program[s.pc]? = some 0x040000 ∧ decode 0x040000 = .error r) ∧ demo.program.length ≤ demo.pc :=
  ⟨⟨{ demo with program := [0x040000] }, _, rfl, rfl⟩, by decide⟩

theorem witness_IndexRisesByOnePerCommand :
    (∃ t, exec .nop demo = .next t) ∧ (∃ t, step { demo with program := [0x000000] } = .next t) ∧
      ∃ t, step demo = .next t := ⟨⟨_, rfl⟩, ⟨_, rfl⟩, ⟨_, rfl⟩⟩

theorem witness_ProgramRunsItsCommandsInOrder : ∃ t, execAll [.encStart 1, .encByte 0xAA] demo = .next t := ⟨_, rfl⟩

theorem witness_ReadRegisterReturnsItsValue : 0x0A ≤ (0x0A : Byte).toNat := by decide

theorem witness_ReadBufferReturnsItsEntry :
    ((1 : Half).toNat < decDone.outlen.toNat ∧ (1 : Half).toNat < 65534) ∧ decDone.outlen.toNat ≤ (2 : Half).toNat ∧
      65534 ≤ (0xFFFE : Half).toNat ∧ (demo.Inv ∧ demo.dec.phase = .idle) ∧
      (withDec (decError .zeroLength)).Inv ∧ (withDec (decError .zeroLength)).dec.phase = .error :=
  ⟨by decide, by decide, by decide, ⟨inv_demo, rfl⟩, inv_error, rfl⟩

theorem witness_ResetStateHasResetValues : demo = State.resetOf params ∧
    ∃ s, exec .reset (withDec (decError .timeout)) = .next s := ⟨rfl, _, rfl⟩

theorem witness_EncodeStartEffect : (withEnc .body 3 2 0).enc.phase = .body ∧ demo.enc.phase ≠ .body ∧
    (withEnc .done 3 0 3).enc.phase ≠ .body ∧ (0xFFFE : Half) ≠ 0xFFFF ∧ (0xFFFE : Half) ≠ 0 ∧ demo.params.Legal ∧
    (∃ t, exec (.encStart 0xFFFE) demo = .next t) ∧ ∃ t, exec (.encStart 0) demo = .next t :=
  ⟨by decide, by decide, by decide, by decide, by decide, by decide, ⟨_, rfl⟩, ⟨_, rfl⟩⟩

theorem witness_EncodeByteEffect : demo.enc.phase ≠ .body ∧
    ((withEnc .body 3 2 0).enc.phase = .body ∧ 2 ≤ (withEnc .body 3 2 0).enc.rem.toNat) ∧
    (withEnc .body 3 1 0).enc.phase = .body ∧ (withEnc .body 3 1 0).enc.rem = 1 := by decide

/-- With a command of the other half, `NOP`, both reads and `CLR_STATUS` among the commands of the frame. -/
theorem witness_EncoderAgreesWithLevelOneEncode : demo.Inv ∧ demo.enc.phase ≠ .body ∧ [0xAA#8].length ≤ 65534 ∧
    Interleaved Instr.isEncoderCommand (encodeCommands [0xAA])
      [.decStart, .encStart 1, .nop, .rdReg 0x00, .rdBuf 0, .clrStatus, .decByte 0xAA, .encByte 0xAA, .nop] :=
  ⟨inv_demo, by decide, by decide, by decide, by decide⟩

theorem witness_DecodeByteOutsideActivePhases :
    [(decIn .idle).phase, (decIn .done).phase, (decIn .error).phase] = [.idle, .done, .error] := rfl

theorem witness_DecodeByteMarkerPhases : (decIn .mark0).esc = false ∧ (decIn .mark0).phase = .mark0 ∧
    (decIn .mark1).esc = false ∧ (decIn .mark1).phase = .mark1 ∧ (decIn .mark1).m0 ≠ params.markerHi ∧
    ({ decIn .mark1 with m0 := 0xAA } : Decoder).m0 = params.markerHi ∧ (0xBB : Byte) = params.markerLo := by decide

theorem witness_DecodeByteLengthPhases : (decIn .lenHi).esc = false ∧ (decIn .lenHi).phase = .lenHi ∧
    (decIn .lenLo).esc = false ∧ (decIn .lenLo).phase = .lenLo ∧ (0xAA : Byte) = params.markerHi ∧
    ((0x00 : Byte) ≠ params.markerHi ∧ ((decIn .lenLo).len.extractLsb' 8 8 ++ 0x00#8 : Half) = 0) ∧
    (0x01 : Byte) ≠ params.markerHi ∧ ((decIn .lenLo).len.extractLsb' 8 8 ++ 0x01#8 : Half) ≠ 0 := by decide

theorem witness_DecodeByteBodyPhase :
    ((decBody 3 2 0 false [0x05]).phase = .body ∧ (decBody 3 2 0 false [0x05]).esc = false) ∧
    (2 ≤ (decBody 3 2 0 false [0x05]).rem.toNat ∧ (decBody 3 2 0 false [0x05]).outlen.toNat < 65534) ∧
    (decBody 2 1 0x05 false [0x05]).rem = 1 ∧ (0xAA : Byte) = params.markerHi ∧
    ((0x05 : Byte) ≠ params.markerHi ∧ (decBody 2 1 0x05 false [0x05]).acc = 0x05) ∧
    (0x06 : Byte) ≠ params.markerHi ∧ (decBody 2 1 0x05 false [0x05]).acc ≠ 0x06 := by decide

theorem witness_DecodeByteFiller :
    [({ decIn .lenHi with esc := true } : Decoder), { decIn .lenLo with esc := true },
        { decIn .lenLo with esc := true, len := 0x0100 }, decBody 3 1 0 true [0x05], decBody 3 0 0 true [0x05],
        decBody 3 0 1 true [0x05]].map (fun d => (d.esc, d.phase, decide (d.len = 0), decide (d.rem = 0), d.acc)) =
      [(true, .lenHi, true, true, 0), (true, .lenLo, true, true, 0), (true, .lenLo, false, true, 0),
        (true, .body, false, false, 0), (true, .body, false, true, 0), (true, .body, false, true, 1)] ∧
    (0x01 : Byte) ≠ 0x00 := by decide

/-- One byte that is stored, at index 0, and one that is not (the checksum). -/
theorem witness_DecodeByteFrame :
    (∃ t, exec (.decByte 0x05) (withDec (decBody 2 2 0 false [])) = .next t ∧
      (withDec (decBody 2 2 0 false [])).dec.storeIndex = some 0) ∧
    ∃ t, exec (.decByte 0x05) (withDec (decBody 2 1 0 false [0x05])) = .next t ∧
      (withDec (decBody 2 1 0 false [0x05])).dec.storeIndex ≠ some 1 :=
  ⟨⟨_, rfl, rfl⟩, ⟨_, rfl, by decide⟩⟩

theorem witness_DecodeAbortEffect : [DecPhase.mark0, .mark1, .lenHi, .lenLo, .body, .idle, .done, .error].map
    (fun p => (decIn p).phase) = [.mark0, .mark1, .lenHi, .lenLo, .body, .idle, .done, .error] := rfl

/-- One input of each of the three cases (R170 (a), (b), (c)); for (a) and (b) one byte before the end, at the end, and
one byte past it without `CLR_STATUS`; and the commands of one byte with an encoder command, `NOP`, both reads and
`CLR_STATUS` among them. -/
theorem witness_DecoderAgreesWithLevelOneDecode : demo.Inv ∧
    (decodeFrame params [0xAA, 0xBB, 0x00, 0x01, 0x00, 0x77] = .got [] [0x77] ∧ 4 + 1 < 6 ∧ 6 ≤ 5 + 1 ∧ 6 < 6 + 1) ∧
    (decodeFrame params [0xAA, 0xBB, 0x00, 0x00, 0x77] = .failed .zeroLength [0x77] ∧ 3 + 1 < 5 ∧ 5 ≤ 4 + 1 ∧
      5 < 5 + 1) ∧
    Instr.clrStatus ∉ decodeCommands [0xAA, 0xBB, 0x00, 0x01, 0x00, 0x77] ∧
    decodeFrame params [0xAA] = .failed .timeout [] ∧
    Interleaved Instr.isDecoderCommand (decodeCommands ([0xAA, 0xBB].take 1))
      [.encAbort, .decStart, .encStart 3, .nop, .decByte 0xAA, .rdReg 0x00, .rdBuf 0, .clrStatus] :=
  ⟨inv_demo, by decide, by decide, by decide, by decide, by decide, by decide⟩

theorem witness_LoopbackReturnsTheBuffer : demo.Inv ∧ demo.enc.phase ≠ .body ∧ [0xAA#8, 0x00#8].length ≤ 65534 :=
  ⟨inv_demo, by decide, by decide⟩

/-- The five ways into ERROR. -/
theorem witness_DecoderErrorEntry :
    [(Instr.decAbort, decIn .mark0), (.decByte 0xBB, decIn .mark1), (.decByte 0x01, decBody 3 1 0 true [0x05]),
        (.decByte 0x00, decIn .lenLo), (.decByte 0x06, decBody 2 1 0x05 false [0x05])].all (fun c =>
      decide (c.2.phase ≠ .error) && decide ((next? (exec c.1 (withDec c.2))).map (·.dec.phase) = some .error)) =
    true := by decide

theorem witness_DecoderErrorIsKeptUntilRearmed :
    (withDec (decError .timeout)).dec.phase = .error ∧
      [Instr.decAbort, .decByte 0x00, .decStart, .reset, .clrStatus].all (fun i =>
        (next? (exec i (withDec (decError .timeout)))).isSome) = true := by decide

theorem witness_SeqerrExactlyWhenRefused :
    (withEnc .body 3 2 0).enc.phase = .body ∧ demo.enc.phase = .idle ∧ (withEnc .done 3 0 0).enc.phase = .done ∧
      (decIn .idle).phase = .idle ∧ decDone.phase = .done ∧ (decError .timeout).phase = .error ∧
      demo.flags.seqerr = false ∧ (∃ t, exec .nop demo = .next t) ∧ ∃ t, exec (.encStart 1) demo = .next t :=
  ⟨by decide, by decide, by decide, by decide, by decide, by decide, by decide, ⟨_, rfl⟩, ⟨_, rfl⟩⟩

theorem witness_IllegalExactlyThreeCauses : demo.Inv ∧ demo.flags.illegal = false ∧
    (∃ t, acceptWord 0x040000 demo = .next t) ∧ (∃ t, acceptWord 0x20000A demo = .next t) ∧
    (∃ t, acceptWord 0x210000 demo = .next t) ∧ ∃ t, acceptWord 0x200009 demo = .next t :=
  ⟨inv_demo, rfl, ⟨_, rfl⟩, ⟨_, rfl⟩, ⟨_, rfl⟩, ⟨_, rfl⟩⟩

theorem witness_StickyFlagsClearedOnlyByClearOrReset :
    (∃ t, exec .nop { demo with flags := ⟨true, true, true⟩ } = .next t) ∧
      (∃ t, exec (.encStart 0xFFFF) demo = .next t ∧ demo.flags.oversize = false ∧ t.flags.oversize = true) ∧
      (∃ t, exec (.encByte 0) demo = .next t ∧ demo.flags.seqerr = false ∧ t.flags.seqerr = true) ∧
      (∃ t, exec (.rdReg 0x0A) demo = .next t ∧ demo.flags.illegal = false ∧ t.flags.illegal = true) ∧
      ∃ t, exec (.rdBuf 0) demo = .next t ∧ demo.flags.illegal = false ∧ t.flags.illegal = true :=
  ⟨⟨_, rfl⟩, ⟨_, rfl, rfl, rfl⟩, ⟨_, rfl, rfl, rfl⟩, ⟨_, rfl, rfl, rfl⟩, ⟨_, rfl, rfl, rfl⟩⟩

theorem witness_ErrorPriority : demo.flags = ⟨false, false, false⟩ ∧ demo.dec.phase ≠ .error ∧
    (∃ t, acceptWord 0x020100 demo = .next t) ∧
    (∃ t, acceptWord 0x01FFFF (withEnc .body 3 2 0) = .next t ∧ (withEnc .body 3 2 0).enc.phase = .body) ∧
    (∃ t, acceptWord 0x01FFFF demo = .next t ∧ demo.enc.phase ≠ .body) ∧
    (∃ t, acceptWord 0x120007 (withDec (decBody 3 0 0x00 true [0x01, 0xAB])) = .next t ∧ t.dec.phase = .error) ∧
    ∃ t, acceptWord 0x120000 (withDec (decBody 2 0 0xAA true [0x05])) = .next t ∧ t.dec.phase = .error :=
  ⟨rfl, by decide, ⟨_, rfl⟩, ⟨_, rfl, rfl⟩, ⟨_, rfl, by decide⟩, ⟨_, rfl, rfl⟩, ⟨_, rfl, rfl⟩⟩

theorem witness_StickyFlagsDoNotBlock :
    (∃ t, exec (.rdReg 0x00) demo = .next t) ∧ ∃ t, exec (.encStart 2) demo = .next t := ⟨⟨_, rfl⟩, ⟨_, rfl⟩⟩

theorem witness_ResponseStreamGrowsOnlyByReads : (∃ t, exec (.rdReg 0xFF) demo = .next t) ∧
    (∃ t, exec (.rdBuf 0xFFFF) demo = .next t) ∧ ∃ t, exec .decStart demo = .next t := ⟨⟨_, rfl⟩, ⟨_, rfl⟩, ⟨_, rfl⟩⟩

theorem witness_TransmitStreamGrowsOnlyByEncoding :
    (∃ t, exec (.encStart 2) demo = .next t) ∧ ∃ t, exec .decStart demo = .next t := ⟨⟨_, rfl⟩, ⟨_, rfl⟩⟩

theorem witness_ReadsAreIdempotent :
    (∃ r, Instr.rdReg 0x0A = .rdReg r) ∧ ∃ k, Instr.rdBuf 0xFFFF = .rdBuf k := ⟨⟨_, rfl⟩, ⟨_, rfl⟩⟩

theorem witness_ParametersNeverChange : (∃ t, exec .reset demo = .next t) ∧
    (∃ t, step { demo with program := [0x3F0000] } = .next t) ∧ ∃ t, exec (.rdReg 0x09) demo = .next t :=
  ⟨⟨_, rfl⟩, ⟨_, rfl⟩, ⟨_, rfl⟩⟩

theorem witness_EncoderAndDecoderAreIndependent : (Instr.encByte 0x05).isEncoderCommand = true ∧
    (Instr.decByte 0x05).isDecoderCommand = true ∧ (∃ t, exec (.encByte 0x05) demo = .next t) ∧
    ∃ t, exec (.decByte 0x05) demo = .next t := ⟨rfl, rfl, ⟨_, rfl⟩, ⟨_, rfl⟩⟩

theorem witness_NoStateCrossesFrames : demo.Inv ∧ (withDec decDone).Inv ∧ demo.params = (withDec decDone).params ∧
    demo.enc.phase ≠ .body ∧ (withDec decDone).enc.phase ≠ .body ∧ (0xFFFE : Half) ≠ 0xFFFF :=
  ⟨inv_demo, inv_done, rfl, by decide, by decide, by decide⟩

theorem witness_InvariantsHoldAtReset : params.Legal := by decide

theorem witness_StepKeepsInvariants : demo.Inv ∧ (∃ t, step demo = .next t) ∧ (withDec decDone).Inv ∧
    ∃ t, step (withDec decDone) = .next t := ⟨inv_demo, ⟨_, rfl⟩, inv_done, ⟨_, rfl⟩⟩

theorem witness_StepNeverStops : (withDec (decBody 3 2 0x01 false [0x01])).Inv := inv_body

theorem witness_EveryRunKeepsInvariants : (⟨0x01, 0x00⟩ : Params).Legal := by decide

theorem witness_BodyLastsForTheWholeLength : (withDec (decBody 3 2 0x01 false [0x01])).Inv ∧
    (decBody 3 2 0x01 false [0x01]).phase = .body ∧ (decBody 3 2 0x01 false [0x01]).esc = false ∧
    [0xAA#8].length < (decBody 3 2 0x01 false [0x01]).rem.toNat := ⟨inv_body, by decide, by decide, by decide⟩

end Sys2Proof.Tests
end

section
/-! PROOF. The instance parameters (spec/00_scope.md R7, spec/10_state.md R39, spec/70_reset_and_hazards.md R241). -/

namespace Sys2Proof.Machine

/-- A step writes the parameters neither through the command it accepts nor at an illegal word. -/
theorem step_keeps_params {s t : State} (h : step s = .next t) : t.params = s.params := by
  rcases step_cases h with ⟨-, rfl⟩ | ⟨w, r, -, -, rfl⟩ | ⟨w, i, u, -, -, hu, rfl⟩
  case inl => rfl
  case inr.inl => simp [illegalCommand]
  case inr.inr => simpa using (exec_keeps_host hu).1

/-- `RD_REG 0x09` appends `PARAM` and changes nothing else (R39, R192). -/
theorem exec_rdReg_param (s : State) : exec (.rdReg 0x09) s = .next (s.respond (paramWord s.params)) := rfl

/-- Settles O53: the frame of a command (`exec_keeps_host`), its lift to a step, the register `PARAM`, and the
constraint that the uninterpreted marker bytes of the reset state meet (`Config.params_legal`). -/
theorem parametersNeverChange : Obligations.ParametersNeverChange := by
  unfold Obligations.ParametersNeverChange
  refine ⟨fun s t i h => (exec_keeps_host h).1, fun s t h => step_keeps_params h, fun s t h => ?_,
    Config.params_legal⟩
  rw [exec_rdReg_param] at h
  cases h
  rfl

end Sys2Proof.Machine
end

section
/-! PROOF. The invariants of spec/10_state.md R43: the encoder and the decoder keep theirs under every operation, so a
command keeps them, and under them every command goes on. -/

namespace Sys2Proof.Machine

/-! ### The encoder (I-E1, I-E2) -/

/-- The encoder's invariants say nothing of an idle encoder. -/
theorem Encoder.inv_of_idle {e : Encoder} (h : e.phase = .idle) : e.Inv := by
  constructor <;> simp [h]

/-- In DONE only `ENC_REM` matters (I-E2). -/
theorem Encoder.inv_of_done {e : Encoder} (hp : e.phase = .done) (hr : e.rem = 0) : e.Inv := by
  constructor <;> simp [hp, hr]

theorem Encoder.reset_inv : Encoder.reset.Inv := Encoder.inv_of_idle rfl

/-- An accepted `ENC_START n` of a nonempty buffer owes all `n` bytes (R141). -/
theorem Encoder.start_inv {n : Half} (hn : n.toNat ≤ Config.bufMax) (h0 : n ≠ 0) (acc : Byte) :
    (⟨.body, n + 1, n, acc⟩ : Encoder).Inv := by
  simp only [Config.bufMax] at hn
  refine ⟨fun _ => ?_, nofun⟩
  simp only [Config.bufMax]
  bv_omega

/-- An `ENC_BYTE` that leaves a byte owed stays in BODY with one byte less (R142). -/
theorem Encoder.count_inv {e : Encoder} (he : e.Inv) (hp : e.phase = .body) (h0 : e.rem - 1 ≠ 0) (acc : Byte) :
    (⟨.body, e.len, e.rem - 1, acc⟩ : Encoder).Inv := by
  obtain ⟨h1, hrem, hlen⟩ := he.body hp
  refine ⟨fun _ => ⟨?_, ?_, hlen⟩, nofun⟩
  · bv_omega
  · show (e.rem - 1).toNat ≤ e.len.toNat - 1
    bv_omega

/-! ### The decoder (I-D1 to I-D6, and the form of `DEC_BUF`) -/

theorem Decoder.reset_inv : Decoder.reset.Inv := by
  constructor <;> simp [Decoder.reset]

/-- `Fail` keeps no count, only the storage. -/
theorem Decoder.fail_inv {d : Decoder} (h : d.buf.wf = true) (e : DecodeError) : (d.fail e).Inv := by
  constructor <;> simp [h]

theorem Decoder.arm_inv {d : Decoder} (h : d.buf.wf = true) : d.arm.Inv := by
  constructor <;> simp [h]

/-- What holds between the data effect of a logical byte and its `Settle`, when the counters have moved and the phase
has not (R172, R175 to R177). The invariants are too strong there: a BODY with all bytes counted and no filler pending
is no state between two commands (I-D3). -/
structure Decoder.ReadyToSettle (d : Decoder) : Prop where
  phase : d.phase = .lenHi ∨ d.phase = .lenLo ∨ d.phase = .body
  esc : d.esc = false
  err : d.err = none
  bodyCount : d.phase = .body → d.outlen.toNat + max d.rem.toNat 1 = d.len.toNat
  outlen : d.phase ≠ .body → d.outlen = 0
  bufWf : Memory.wf d.buf = true
  bufListed : ∀ i < d.outlen.toNat, (d.buf.stored i).isSome

namespace Decoder.ReadyToSettle

variable {d : Decoder} (h : d.ReadyToSettle)
include h

theorem phase_ne_done : d.phase ≠ .done := by
  rcases h.phase with h | h | h <;> simp [h]

theorem phase_ne_error : d.phase ≠ .error := by
  rcases h.phase with h | h | h <;> simp [h]

/-- With the filler pending, the byte waits for its `Settle` and the invariants hold meanwhile (R175). -/
theorem pending_inv : Decoder.Inv { d with esc := true } where
  esc _ := h.phase
  bodyCount hp hr := by
    have := h.bodyCount hp
    simp only at hr ⊢
    omega
  bodyLast hp hr := by
    have := h.bodyCount hp
    simp only at hr
    exact ⟨rfl, by bv_omega⟩
  done hp := absurd hp h.phase_ne_done
  error := by simp [h.phase_ne_error, h.err]
  errorClear hp := absurd hp h.phase_ne_error
  len hp := by
    have := h.bodyCount (hp.resolve_right h.phase_ne_done)
    simp only
    omega
  outlen hb _ := h.outlen hb
  bufWf := h.bufWf
  bufListed := h.bufListed

/-- A BODY with bytes left to count goes on. -/
theorem body_inv (hp : d.phase = .body) (hr : d.rem ≠ 0) : d.Inv := by
  have hc := h.bodyCount hp
  constructor
  case bodyCount => bv_omega
  case bodyLast => exact fun _ h0 => absurd h0 hr
  case len => bv_omega
  case bufListed => exact h.bufListed
  all_goals simp [hp, h.esc, h.err, h.bufWf]

/-- A BODY with all bytes counted and a zero accumulator ends in DONE. -/
theorem done_inv (hp : d.phase = .body) (hr : d.rem = 0) (ha : d.acc = 0) : Decoder.Inv { d with phase := .done } := by
  have hc := h.bodyCount hp
  constructor <;> simp [h.esc, h.err, h.bufWf, hr, ha]
  case done => bv_omega
  case len => bv_omega
  case bufListed => exact h.bufListed

/-- `Settle` restores the invariants, whichever phase it leads to (R177). -/
theorem settle_inv : d.settle.Inv := by
  rcases d.settle_cases with ⟨hp, hs⟩ | ⟨-, -, hs⟩ | ⟨hp, hl, hs⟩ | ⟨hp, hr, ha, hs⟩ | ⟨-, -, -, hs⟩ | ⟨hp, hr, hs⟩ |
    ⟨h1, h2, h3, -⟩
  · rw [hs]
    have ho := h.outlen (by simp [hp])
    constructor <;> simp [h.esc, h.err, ho, h.bufWf]
  · exact hs ▸ Decoder.fail_inv h.bufWf _
  · rw [hs]
    constructor <;> simp [h.esc, h.err, h.bufWf]
    case bodyLast => exact hl
    case len => bv_omega
  · exact hs ▸ h.done_inv hp hr ha
  · exact hs ▸ Decoder.fail_inv h.bufWf _
  · rw [hs]
    exact h.body_inv hp hr
  · exact absurd h.phase (by simp [h1, h2, h3])

/-- Both ways a logical byte can go (R175). -/
theorem logical_inv (p : Params) (w : Byte) : (d.logical p w).Inv := by
  rcases d.logical_cases p w with ⟨-, hl⟩ | ⟨-, hl⟩ <;> rw [hl]
  · exact h.pending_inv
  · exact h.settle_inv

end Decoder.ReadyToSettle

/-- `DEC_ERR` is set in ERROR only (I-D5). -/
theorem Decoder.Inv.err_eq_none {d : Decoder} (hd : d.Inv) (hp : d.phase ≠ .error) : d.err = none :=
  not_not.mp (mt hd.error.mpr hp)

/-- A filler that is due may settle the byte it belongs to (R176). -/
theorem Decoder.Inv.filler_readyToSettle {d : Decoder} (hd : d.Inv) (he : d.esc = true) :
    Decoder.ReadyToSettle { d with esc := false } where
  phase := hd.esc he
  esc := rfl
  err := hd.err_eq_none fun hp => by simp [(hd.errorClear hp).2] at he
  bodyCount hp := by
    have hlen := hd.len (.inl hp)
    by_cases hr : d.rem = 0
    · have := (hd.bodyLast hp hr).2
      bv_omega
    · have := hd.bodyCount hp (by bv_omega)
      bv_omega
  outlen hb := by
    have hdone : d.phase ≠ .done := by rcases hd.esc he with h | h | h <;> simp [h]
    exact hd.outlen hb hdone
  bufWf := hd.bufWf
  bufListed := hd.bufListed

theorem Decoder.Inv.filler_inv {d : Decoder} (hd : d.Inv) (he : d.esc = true) (w : Byte) : (d.filler w).Inv := by
  rcases Decoder.filler_cases w d with ⟨-, h⟩ | ⟨-, h⟩ <;> rw [h]
  · exact Decoder.fail_inv hd.bufWf _
  · exact (hd.filler_readyToSettle he).settle_inv

/-- A length byte only writes `DEC_LEN`, and may settle. -/
theorem Decoder.Inv.length_readyToSettle {d : Decoder} (hd : d.Inv) (he : d.esc = false)
    (hp : d.phase = .lenHi ∨ d.phase = .lenLo) (v : Half) : Decoder.ReadyToSettle { d with len := v } := by
  have hother : d.phase ≠ .error ∧ d.phase ≠ .body ∧ d.phase ≠ .done := by rcases hp with hp | hp <;> simp [hp]
  obtain ⟨hne, hnb, hnd⟩ := hother
  have hout := hd.outlen hnb hnd
  constructor <;> simp [he, hd.err_eq_none hne, hnb, hout, hd.bufWf]
  case phase => exact hp

/-- A BODY byte moves one byte from the count still owed to the count stored, or is the checksum, and may settle
(R175). -/
theorem Decoder.Inv.bodyData_readyToSettle {d : Decoder} (hd : d.Inv) (he : d.esc = false) (hp : d.phase = .body)
    (w : Byte) : (d.bodyData w).ReadyToSettle := by
  have herr : d.err = none := hd.err_eq_none (by simp [hp])
  have hrem : d.rem.toNat ≠ 0 := fun h0 => by
    have := (hd.bodyLast hp (BitVec.eq_of_toNat_eq h0)).1
    simp [he] at this
  have hcount := hd.bodyCount hp (by omega)
  have hlen := d.len.isLt
  unfold Decoder.bodyData
  cases hi : d.storeIndex with
  | none =>
    have hlast := Decoder.storeIndex_eq_none hi hp he
    constructor <;> simp [hp, he, herr, hd.bufWf]
    case bodyCount => bv_omega
    case bufListed => exact hd.bufListed
  | some i =>
    have hlt := Decoder.storeIndex_lt hd hi
    obtain ⟨-, -, hr, rfl⟩ := Decoder.storeIndex_eq_some hi
    constructor <;> simp [hp, he, herr, Memory.write_wf _ hd.bufWf hlt]
    case bodyCount => bv_omega
    case bufListed =>
      intro j hj
      rw [Memory.stored_write]
      split
      · rfl
      · exact hd.bufListed j (by omega)

/-- Everything a wire byte with no filler pending can do (R172, R174). -/
theorem Decoder.wireByte_cases (p : Params) (w : Byte) (d : Decoder) :
    (d.phase = .mark0 ∧ d.wireByte p w = { d with m0 := w, phase := .mark1 }) ∨
    (d.phase = .mark1 ∧ d.m0 = p.markerHi ∧ w = p.markerLo ∧ d.wireByte p w = { d with phase := .lenHi }) ∨
    (d.phase = .mark1 ∧ ¬(d.m0 = p.markerHi ∧ w = p.markerLo) ∧ d.wireByte p w = d.fail .badMarker) ∨
    (d.phase = .lenHi ∧ d.wireByte p w = Decoder.logical p w { d with len := joinBytes w (loByte d.len) }) ∨
    (d.phase = .lenLo ∧ d.wireByte p w = Decoder.logical p w { d with len := joinBytes (hiByte d.len) w }) ∨
    (d.phase = .body ∧ d.wireByte p w = (d.bodyData w).logical p w) ∨
    (d.phase.active = false ∧ d.wireByte p w = d) := by
  unfold Decoder.wireByte
  cases d.phase with
  | mark1 => by_cases h : d.m0 = p.markerHi ∧ w = p.markerLo <;> simp [h]
  | _ => simp [DecPhase.active]

/-- A wire byte with no filler pending keeps the invariants, phase by phase (R172). -/
theorem Decoder.Inv.wireByte_inv {d : Decoder} (hd : d.Inv) (he : d.esc = false) (p : Params) (w : Byte) :
    (d.wireByte p w).Inv := by
  rcases d.wireByte_cases p w with ⟨hp, hw⟩ | ⟨hp, -, -, hw⟩ | ⟨-, -, hw⟩ | ⟨hp, hw⟩ | ⟨hp, hw⟩ | ⟨hp, hw⟩ | ⟨-, hw⟩ <;>
    rw [hw]
  · have hout := hd.outlen (by simp [hp]) (by simp [hp])
    constructor <;> simp [he, hd.err_eq_none (by simp [hp]), hout, hd.bufWf]
  · have hout := hd.outlen (by simp [hp]) (by simp [hp])
    constructor <;> simp [he, hd.err_eq_none (by simp [hp]), hout, hd.bufWf]
  · exact Decoder.fail_inv hd.bufWf _
  · exact (hd.length_readyToSettle he (.inl hp) _).logical_inv p w
  · exact (hd.length_readyToSettle he (.inr hp) _).logical_inv p w
  · exact (hd.bodyData_readyToSettle he hp w).logical_inv p w
  · exact hd

theorem Decoder.Inv.accept_inv {d d' : Decoder} (hd : d.Inv) {p : Params} {w : Byte} (h : d.accept p w = .ok d') :
    d'.Inv := by
  rcases d.accept_cases p w with ⟨he, ha⟩ | ⟨he, -, ha⟩ | ⟨i, -, -, ha⟩ <;> cases ha.symm.trans h
  · exact hd.filler_inv he w
  · exact hd.wireByte_inv he p w

end Sys2Proof.Machine
end

section
/-! PROOF. The steps of the block (spec/10_state.md R21, R43, spec/20_memory.md R60): what a step does with the
presented word, that commands do not look at the host's program, and the invariants along every run. -/

namespace Sys2Proof.Machine

/-! ### One command -/

/-- The block has no instruction without a meaning. -/
theorem exec_ne_refused (i : Instr) (s : State) (r : Refusal) : exec i s ≠ .refused r := by
  cases i with
  | decByte w =>
    simp only [exec, execDecByte]
    split
    · split <;> nofun
    · nofun
  | _ => nofun

/-- Only the encoder's commands and `RESET` write the encoder; the named cases are those that do. -/
theorem Encoder.Inv.exec_inv {s t : State} (he : s.enc.Inv) {i : Instr} (h : exec i s = .next t) : t.enc.Inv := by
  rcases exec_cases h with ⟨-, rfl⟩ | ⟨n, -, ⟨-, rfl⟩ | ⟨-, -, rfl⟩ | ⟨-, hn, h0, rfl⟩ | ⟨-, h0, rfl⟩⟩ |
    ⟨b, -, ⟨-, rfl⟩ | ⟨-, hr, rfl⟩ | ⟨hp, hr, rfl⟩⟩ | ⟨-, rfl⟩ | ⟨-, rfl⟩ | ⟨w, -, ⟨-, rfl⟩ | ⟨-, d, -, rfl⟩⟩ |
    ⟨-, ⟨-, rfl⟩ | ⟨-, rfl⟩⟩ | ⟨r, -, ⟨v, -, rfl⟩ | ⟨-, rfl⟩⟩ | ⟨k, -, ⟨v, -, rfl⟩ | ⟨-, rfl⟩⟩ | ⟨-, rfl⟩ | ⟨-, rfl⟩
  case inr.inl.inr.inr.inl => -- `ENC_START`, bytes owed
    exact Encoder.start_inv hn h0 _
  case inr.inl.inr.inr.inr => -- `ENC_START 0`
    exact Encoder.inv_of_done rfl h0
  case inr.inr.inl.inr.inl => -- `ENC_BYTE`, the last one
    exact Encoder.inv_of_done rfl hr
  case inr.inr.inl.inr.inr => -- `ENC_BYTE`, bytes owed
    exact Encoder.count_inv he hp hr _
  case inr.inr.inr.inl => -- `ENC_ABORT`
    exact Encoder.inv_of_idle rfl
  case inr.inr.inr.inr.inr.inr.inr.inr.inr.inr => -- `RESET`
    exact Encoder.reset_inv
  all_goals exact he

/-- Only the decoder's commands and `RESET` write the decoder; the named cases are those that do. -/
theorem Decoder.Inv.exec_inv {s t : State} (hd : s.dec.Inv) {i : Instr} (h : exec i s = .next t) : t.dec.Inv := by
  rcases exec_cases h with ⟨-, rfl⟩ | ⟨n, -, ⟨-, rfl⟩ | ⟨-, -, rfl⟩ | ⟨-, -, -, rfl⟩ | ⟨-, -, rfl⟩⟩ |
    ⟨b, -, ⟨-, rfl⟩ | ⟨-, -, rfl⟩ | ⟨-, -, rfl⟩⟩ | ⟨-, rfl⟩ | ⟨-, rfl⟩ | ⟨w, -, ⟨-, rfl⟩ | ⟨-, d, ha, rfl⟩⟩ |
    ⟨-, ⟨-, rfl⟩ | ⟨-, rfl⟩⟩ | ⟨r, -, ⟨v, -, rfl⟩ | ⟨-, rfl⟩⟩ | ⟨k, -, ⟨v, -, rfl⟩ | ⟨-, rfl⟩⟩ | ⟨-, rfl⟩ | ⟨-, rfl⟩
  case inr.inr.inr.inr.inl => -- `DEC_START`
    exact Decoder.arm_inv hd.bufWf
  case inr.inr.inr.inr.inr.inl.inr => -- `DEC_BYTE`, accepted
    exact hd.accept_inv ha
  case inr.inr.inr.inr.inr.inr.inl.inr => -- `DEC_ABORT`, in an active phase
    exact Decoder.fail_inv hd.bufWf _
  case inr.inr.inr.inr.inr.inr.inr.inr.inr.inr => -- `RESET`
    exact Decoder.reset_inv
  all_goals exact hd

theorem State.Inv.exec_inv {s t : State} (hs : s.Inv) {i : Instr} (h : exec i s = .next t) : t.Inv := by
  obtain ⟨hparams, hprogram, hpc⟩ := exec_keeps_host h
  exact ⟨hparams ▸ hs.params, hs.enc.exec_inv h, hs.dec.exec_inv h, by rw [hpc, hprogram]; exact hs.pc⟩

/-- The one fault, a store past `DEC_BUF`, needs a state without the invariants (R119). -/
theorem State.Inv.exec_next {s : State} (hs : s.Inv) (i : Instr) : ∃ t, exec i s = .next t := by
  cases i with
  | decByte w =>
    simp only [exec, execDecByte, Decoder.accept_ok s.params w fun _ => Decoder.storeIndex_lt hs.dec]
    split <;> exact ⟨_, rfl⟩
  | _ => exact ⟨_, rfl⟩

/-- Under the invariants every sequence of commands goes on, and keeps them. -/
theorem State.Inv.execAll_next {s : State} (hs : s.Inv) (is : List Instr) : ∃ t, execAll is s = .next t ∧ t.Inv := by
  induction is generalizing s with
  | nil => exact ⟨s, rfl, hs⟩
  | cons i is ih =>
    obtain ⟨u, hu⟩ := hs.exec_next i
    rw [execAll_cons, hu]
    exact ih (hs.exec_inv hu)

/-! ### One step -/

theorem step_of_command {s : State} {w : CmdWord} {i : Instr} (hp : s.presented = some w) (hd : decode w = .ok i) :
    step s = onNext State.advance (exec i s) := by
  simp only [step, stepPort, hp, acceptWord, hd]

theorem step_of_illegal {s : State} {w : CmdWord} {r : IllegalWord} (hp : s.presented = some w)
    (hd : decode w = .error r) : step s = .next (illegalCommand s).advance := by
  simp only [step, stepPort, hp, acceptWord, hd, onNext]

theorem step_of_end {s : State} (hp : s.presented = none) : step s = .next s := by
  simp only [step, stepPort, hp]

/-- The word presented is within the program (R21). -/
theorem State.pc_lt_of_presented {s : State} {w : CmdWord} (h : s.presented = some w) : s.pc < s.program.length :=
  (List.getElem?_eq_some_iff.mp h).1

theorem State.presented_eq_none {s : State} : s.presented = none ↔ s.program.length ≤ s.pc :=
  List.getElem?_eq_none_iff

/-- Moving the index past a presented word keeps it within the program. -/
theorem State.Inv.advance_inv {s : State} (hs : s.Inv) (h : s.pc < s.program.length) : s.advance.Inv :=
  ⟨hs.params, hs.enc, hs.dec, h⟩

theorem State.Inv.illegalCommand_inv {s : State} (hs : s.Inv) : (illegalCommand s).Inv :=
  ⟨hs.params, hs.enc, hs.dec, hs.pc⟩

theorem State.Inv.step_inv {s t : State} (hs : s.Inv) (h : step s = .next t) : t.Inv := by
  rcases step_cases h with ⟨-, rfl⟩ | ⟨w, r, hp, -, rfl⟩ | ⟨w, i, u, hp, -, hu, rfl⟩
  · exact hs
  · exact hs.illegalCommand_inv.advance_inv (State.pc_lt_of_presented hp)
  · obtain ⟨-, hprogram, hpc⟩ := exec_keeps_host hu
    refine (hs.exec_inv hu).advance_inv ?_
    rw [hprogram, hpc]
    exact State.pc_lt_of_presented hp

theorem State.Inv.step_next {s : State} (hs : s.Inv) : ∃ t, step s = .next t := by
  cases hp : s.presented with
  | none => exact ⟨s, step_of_end hp⟩
  | some w =>
    cases hd : decode w with
    | error r => exact ⟨_, step_of_illegal hp hd⟩
    | ok i =>
      obtain ⟨u, hu⟩ := hs.exec_next i
      exact ⟨u.advance, by rw [step_of_command hp hd, hu]; rfl⟩

/-! ### Runs -/

theorem run_succ_of_step {s t : State} (h : step s = .next t) (n : Nat) : core.run (n + 1) s = core.run n t := by
  have hstep : core.step s = .next t := h
  simp only [Host.Core.run, hstep]

theorem State.Inv.run_next {s : State} (hs : s.Inv) (n : Nat) : ∃ t : State, core.run n s = .next t ∧ t.Inv := by
  induction n generalizing s with
  | zero => exact ⟨s, rfl, hs⟩
  | succ n ih =>
    obtain ⟨u, hu⟩ := hs.step_next
    rw [run_succ_of_step hu]
    exact ih (hs.step_inv hu)

/-- The reset state of a legal instance, with any program loaded. -/
theorem State.resetOf_inv {p : Params} (hp : p.Legal) (program : List CmdWord) :
    State.Inv { State.resetOf p with program := program } :=
  ⟨hp, Encoder.reset_inv, Decoder.reset_inv, Nat.zero_le _⟩

/-- Settles O57: the encoder's and the decoder's invariants are kept by every command (`State.Inv.exec_inv`), and the
index moves only past a presented word. -/
theorem stepKeepsInvariants : Obligations.StepKeepsInvariants := by
  unfold Obligations.StepKeepsInvariants
  exact fun _ _ hs h => hs.step_inv h

/-- Settles O59, by induction on the number of steps: the invariants hold at reset, let every step go on, and are
kept. -/
theorem everyRunKeepsInvariants : Obligations.EveryRunKeepsInvariants := by
  unfold Obligations.EveryRunKeepsInvariants
  exact fun _ program n hp => (State.resetOf_inv hp program).run_next n

/-- Settles O56. -/
theorem invariantsHoldAtReset : Obligations.InvariantsHoldAtReset := by
  unfold Obligations.InvariantsHoldAtReset
  exact ⟨State.resetOf_inv Config.params_legal [], fun _ hp => State.resetOf_inv hp []⟩

/-- Settles O19: the command's outcome is the step's, but for the index. -/
theorem stepRunsThePresentedCommand : Obligations.StepRunsThePresentedCommand := by
  unfold Obligations.StepRunsThePresentedCommand
  intro s w i hp hd
  refine ⟨fun t h => ?_, fun f h => ?_, exec_ne_refused i s⟩
  · obtain ⟨-, -, hpc⟩ := exec_keeps_host h
    rw [step_of_command hp hd, h, ← hpc]
    rfl
  · rw [step_of_command hp hd, h]
    rfl

/-- Settles O20. -/
theorem stepOnIllegalWordAndAtTheEnd : Obligations.StepOnIllegalWordAndAtTheEnd := by
  unfold Obligations.StepOnIllegalWordAndAtTheEnd
  exact fun s => ⟨fun w r hp hd => step_of_illegal hp hd, fun h => step_of_end (State.presented_eq_none.mpr h)⟩

/-- Settles O21: no command writes the host's index (`exec_keeps_host`), so a step moves it by the one `advance` that
the presence of a word decides. -/
theorem indexRisesByOnePerCommand : Obligations.IndexRisesByOnePerCommand := by
  unfold Obligations.IndexRisesByOnePerCommand
  refine ⟨fun i s t h => ?_, fun s t h => ?_, rfl⟩
  · obtain ⟨-, hprogram, hpc⟩ := exec_keeps_host h
    exact ⟨hpc, hprogram⟩
  · rcases step_cases h with ⟨hp, rfl⟩ | ⟨w, r, hp, -, rfl⟩ | ⟨w, i, u, hp, -, hu, rfl⟩
    · exact ⟨rfl, fun hlt => absurd (State.presented_eq_none.mp hp) (Nat.not_le.mpr hlt), fun _ => rfl⟩
    · exact ⟨rfl, fun _ => rfl, fun hle => absurd (State.pc_lt_of_presented hp) (Nat.not_lt.mpr hle)⟩
    · obtain ⟨-, hprogram, hpc⟩ := exec_keeps_host hu
      exact ⟨hprogram, fun _ => congrArg (· + 1) hpc,
        fun hle => absurd (State.pc_lt_of_presented hp) (Nat.not_lt.mpr hle)⟩

end Sys2Proof.Machine
end

section
/-! PROOF. Running a program of command words (spec/10_state.md R21, spec/30_encoding.md R95): decode inverts encode, no
command looks at the host's program or index, and the STATUS word's fields (R38). -/

namespace Sys2Proof

theorem opField_encode (i : Instr) : opField (encode i) = i.op := opField_append _ _

theorem immField_encode (i : Instr) : immField (encode i) = i.imm := immField_append _ _

theorem decodeF0_encode {i : Instr} (h : i.imm = 0) (j : Instr) : decodeF0 j (encode i) = .ok j := by
  rw [decodeF0, immField_encode, if_pos h]

theorem decodeF8_encode {i : Instr} {b : Byte} (h : i.imm = 0#8 ++ b) (f : Byte → Instr) :
    decodeF8 f (encode i) = .ok (f b) := by
  rw [decodeF8, encode, h, immHigh_append, immLow_append]
  rfl

theorem decodeF16_encode (i : Instr) (f : Half → Instr) : decodeF16 f (encode i) = .ok (f i.imm) := by
  rw [decodeF16, immField_encode]

/-- The word of a command decodes to that command, operand included (R93, R95). -/
theorem decode_encode (i : Instr) : decode (encode i) = .ok i := by
  unfold decode
  rw [opField_encode]
  cases i with
  | encStart n | rdBuf n => exact decodeF16_encode _ _
  | encByte b | decByte b | rdReg b => exact decodeF8_encode rfl _
  | _ => exact decodeF0_encode rfl _

namespace Machine

/-- Load a program and set the host's index, which no command does. -/
def State.setHost (program : List CmdWord) (pc : Nat) (s : State) : State := { s with program := program, pc := pc }

/-- A command does the same whatever program it stands in, at whatever index. -/
theorem exec_setHost (i : Instr) (program : List CmdWord) (pc : Nat) (s : State) :
    exec i (s.setHost program pc) = onNext (State.setHost program pc) (exec i s) := by
  have hp : (s.setHost program pc).params = s.params := rfl
  have he : (s.setHost program pc).enc = s.enc := rfl
  have hd : (s.setHost program pc).dec = s.dec := rfl
  cases i with
  | encStart n =>
    simp only [exec, execEncStart, hp, he]
    split_ifs <;> rfl
  | encByte b =>
    simp only [exec, execEncByte, he]
    split_ifs <;> rfl
  | decByte w =>
    simp only [exec, execDecByte, hp, hd]
    split_ifs
    · cases s.dec.accept s.params w <;> rfl
    · rfl
  | decAbort =>
    simp only [exec, execDecAbort, hd]
    split_ifs <;> rfl
  | rdReg r =>
    have hr : readReg (s.setHost program pc) r = readReg s r := rfl
    simp only [exec, execRdReg, hr]
    cases readReg s r <;> rfl
  | rdBuf k =>
    simp only [exec, execRdBuf, hd]
    cases readBuf s.dec k <;> rfl
  | _ => rfl

theorem execAll_cons_eq_next {i : Instr} {is : List Instr} {s t : State} (h : execAll (i :: is) s = .next t) :
    ∃ u, exec i s = .next u ∧ execAll is u = .next t := by
  rw [execAll_cons] at h
  cases hu : exec i s with
  | next u => exact ⟨u, rfl, by rwa [hu] at h⟩
  | fault f => rw [hu] at h; cases h
  | refused r => rw [hu] at h; cases h

/-- A step whose presented word is the command's own is the command, with the index moved on. -/
theorem step_setHost_of_encode {i : Instr} {s t : State} {program : List CmdWord} {pc : Nat}
    (hw : program[pc]? = some (encode i)) (h : exec i s = .next t) :
    step (s.setHost program pc) = .next (t.setHost program (pc + 1)) := by
  rw [step_of_command (s := s.setHost program pc) hw (decode_encode i), exec_setHost, h]
  rfl

/-- From any index on, a run executes the commands whose words stand there, in order. -/
theorem run_eq_execAll (is : List Instr) {before : List CmdWord} {s t : State} (h : execAll is s = .next t) :
    core.run is.length (s.setHost (before ++ is.map encode) before.length) =
      .next (t.setHost (before ++ is.map encode) (before.length + is.length)) := by
  induction is generalizing before s with
  | nil =>
    cases h
    rfl
  | cons i is ih =>
    obtain ⟨u, hu, ht⟩ := execAll_cons_eq_next h
    have hw : (before ++ (i :: is).map encode)[before.length]? = some (encode i) := by simp
    rw [List.length_cons, run_succ_of_step (step_setHost_of_encode hw hu)]
    have hrest := ih (before := before ++ [encode i]) ht
    simpa [Nat.add_assoc, Nat.add_comm 1] using hrest

/-- Settles O22: the run of the program of the commands' words, begun at its first word. -/
theorem programRunsItsCommandsInOrder : Obligations.ProgramRunsItsCommandsInOrder := by
  unfold Obligations.ProgramRunsItsCommandsInOrder
  intro is s t h
  simpa [State.setHost] using run_eq_execAll is (before := []) h

/-! ### STATUS -/

/-- A field of a word, read off the word's value. -/
theorem extractLsb'_eq_of_toNat {n len : Nat} {x : BitVec n} {v : BitVec len} (start : Nat)
    (h : x.toNat / 2 ^ start % 2 ^ len = v.toNat) : x.extractLsb' start len = v := by
  apply BitVec.eq_of_toNat_eq
  rw [BitVec.extractLsb'_toNat, Nat.shiftRight_eq_div_pow, h]

/-- A bit of a word, read off the word's value. -/
theorem getLsbD_eq_of_toNat {n : Nat} {x : BitVec n} {b : Bool} (i : Nat) (h : x.toNat / 2 ^ i % 2 = b.toNat) :
    x.getLsbD i = b := by
  rw [← BitVec.testBit_toNat, Nat.testBit_eq_decide_div_mod_eq, h]
  cases b <;> rfl

/-- Settles O24: each field is read off the place value that `statusWord_toNat` gives it. -/
theorem statusFields : Obligations.StatusFields := by
  unfold Obligations.StatusFields
  refine ⟨rfl, rfl, rfl, fun s => ?_⟩
  have henc := s.enc.phase.code.isLt
  have hdec := s.dec.phase.code.isLt
  have herr := (errCode s.dec.err).isLt
  have hesc := s.dec.esc.toNat_lt
  have hseq := s.flags.seqerr.toNat_lt
  have hill := s.flags.illegal.toNat_lt
  have hover := s.flags.oversize.toNat_lt
  have hw := statusWord_toNat s
  exact ⟨extractLsb'_eq_of_toNat 0 (by omega), extractLsb'_eq_of_toNat 2 (show _ = 0 by omega),
    extractLsb'_eq_of_toNat 4 (by omega), getLsbD_eq_of_toNat 7 (by omega), extractLsb'_eq_of_toNat 8 (by omega),
    getLsbD_eq_of_toNat 11 (by omega), getLsbD_eq_of_toNat 12 (by omega), getLsbD_eq_of_toNat 13 (by omega),
    extractLsb'_eq_of_toNat 14 (show _ = 0 by omega)⟩

end Machine

end Sys2Proof
end

section
/-! PROOF. What a wire byte does to `DEC_BUF` and `DEC_OUTLEN` (spec/10_state.md R36, spec/42_decoder.md R175): the one
store of `storeIndex`, and that nothing the decoder does looks at the stored bytes. -/

namespace Sys2Proof.Machine

/-- The same decoder registers over another storage of `DEC_BUF`. -/
def Decoder.setBuf (m : Memory) (d : Decoder) : Decoder := { d with buf := m }

/-- A storage of `DEC_BUF` after the decoder has accepted the wire byte `w`: the byte goes where `storeIndex` says, if
anywhere. -/
def Decoder.storeInto (w : Byte) (d : Decoder) (m : Memory) : Memory :=
  match d.storeIndex with
  | some i => m.write i w
  | none => m

@[simp] theorem Decoder.setBuf_phase (m : Memory) (d : Decoder) : (d.setBuf m).phase = d.phase := rfl
@[simp] theorem Decoder.setBuf_esc (m : Memory) (d : Decoder) : (d.setBuf m).esc = d.esc := rfl
@[simp] theorem Decoder.setBuf_m0 (m : Memory) (d : Decoder) : (d.setBuf m).m0 = d.m0 := rfl
@[simp] theorem Decoder.setBuf_len (m : Memory) (d : Decoder) : (d.setBuf m).len = d.len := rfl
@[simp] theorem Decoder.setBuf_rem (m : Memory) (d : Decoder) : (d.setBuf m).rem = d.rem := rfl
@[simp] theorem Decoder.setBuf_acc (m : Memory) (d : Decoder) : (d.setBuf m).acc = d.acc := rfl
@[simp] theorem Decoder.setBuf_storeIndex (m : Memory) (d : Decoder) : (d.setBuf m).storeIndex = d.storeIndex := rfl

theorem Decoder.setBuf_self (d : Decoder) : d.setBuf d.buf = d := rfl

theorem Decoder.storeInto_of_none {d : Decoder} (h : d.storeIndex = none) (w : Byte) (m : Memory) :
    d.storeInto w m = m := by
  rw [storeInto, h]

theorem Decoder.storeInto_of_some {d : Decoder} {i : Nat} (h : d.storeIndex = some i) (w : Byte) (m : Memory) :
    d.storeInto w m = m.write i w := by
  rw [storeInto, h]

theorem Decoder.storeIndex_of_phase {d : Decoder} (h : d.phase ≠ .body) : d.storeIndex = none := by
  simp [storeIndex, h]

theorem Decoder.storeIndex_of_esc {d : Decoder} (h : d.esc = true) : d.storeIndex = none := by
  simp [storeIndex, h]

/-! ### The storage decides nothing -/

theorem Decoder.settle_setBuf (m : Memory) (d : Decoder) : (d.setBuf m).settle = d.settle.setBuf m := by
  unfold settle
  rw [setBuf_phase]
  cases d.phase with
  | lenLo => by_cases hl : d.len = 0 <;> simp only [setBuf_len, hl, ↓reduceIte] <;> rfl
  | body =>
    by_cases hr : d.rem = 0
    · by_cases ha : d.acc = 0 <;> simp only [setBuf_rem, setBuf_acc, hr, ha, ↓reduceIte] <;> rfl
    · simp only [setBuf_rem, hr, ↓reduceIte]
  | _ => rfl

theorem Decoder.logical_setBuf (p : Params) (w : Byte) (m : Memory) (d : Decoder) :
    (d.setBuf m).logical p w = (d.logical p w).setBuf m := by
  unfold logical
  split
  · rfl
  · exact settle_setBuf m d

theorem Decoder.filler_setBuf (w : Byte) (m : Memory) (d : Decoder) :
    (d.setBuf m).filler w = (d.filler w).setBuf m := by
  unfold filler
  split
  · rfl
  · exact settle_setBuf m { d with esc := false }

theorem Decoder.bodyData_setBuf (w : Byte) (m : Memory) (d : Decoder) :
    (d.setBuf m).bodyData w = (d.bodyData w).setBuf (d.storeInto w m) := by
  unfold bodyData storeInto
  rw [setBuf_storeIndex]
  cases d.storeIndex <;> rfl

/-- Over another storage a wire byte does the same to the registers, and stores the same byte at the same index. -/
theorem Decoder.wireByte_setBuf (p : Params) (w : Byte) (m : Memory) (d : Decoder) :
    (d.setBuf m).wireByte p w = (d.wireByte p w).setBuf (d.storeInto w m) := by
  unfold wireByte
  rw [setBuf_phase]
  cases hp : d.phase with
  | body => simp only [bodyData_setBuf, logical_setBuf]
  | mark1 =>
    rw [storeInto_of_none (storeIndex_of_phase (by simp [hp]))]
    by_cases h : d.m0 = p.markerHi ∧ w = p.markerLo <;> simp [h, setBuf, fail]
  | lenHi | lenLo =>
    rw [storeInto_of_none (storeIndex_of_phase (by simp [hp]))]
    simp only [setBuf_len, ← logical_setBuf]
    rfl
  | mark0 =>
    rw [storeInto_of_none (storeIndex_of_phase (by simp [hp]))]
    rfl
  | idle | done | error => rw [storeInto_of_none (storeIndex_of_phase (by simp [hp]))]

/-- Over another storage the acceptance of a wire byte answers the same (R172). -/
theorem Decoder.accept_setBuf (p : Params) (w : Byte) (m : Memory) (d : Decoder) :
    (d.setBuf m).accept p w = (d.accept p w).map (Decoder.setBuf (d.storeInto w m)) := by
  unfold accept
  rw [setBuf_storeIndex, setBuf_esc, filler_setBuf, wireByte_setBuf]
  split
  next h => rw [storeInto_of_none (storeIndex_of_esc h)]; rfl
  next =>
    split
    · split <;> rfl
    · rfl

/-- The storage after an accepted wire byte: at most the one store. -/
theorem Decoder.accept_buf {p : Params} {w : Byte} {d d' : Decoder} (h : d.accept p w = .ok d') :
    d'.buf = d.storeInto w d.buf := by
  have hmap := accept_setBuf p w d.buf d
  rw [setBuf_self, h] at hmap
  exact congrArg Decoder.buf (Except.ok.inj hmap)

theorem Decoder.read_storeInto_of_ne {d : Decoder} {a : Nat} (h : d.storeIndex ≠ some a) (w : Byte) (m : Memory) :
    (d.storeInto w m).read a = m.read a := by
  unfold storeInto
  split
  next i hi =>
    have hne : i ≠ a := fun hia => h (hia ▸ hi)
    rw [Memory.read_write, if_neg hne]
  next => rfl

theorem Decoder.read_storeInto_of_eq {d : Decoder} {a : Nat} (h : d.storeIndex = some a) (w : Byte) (m : Memory) :
    (d.storeInto w m).read a = w := by
  rw [storeInto_of_some h, Memory.read_write, if_pos rfl]

/-- A `DEC_BYTE` that goes on writes the decoder or SEQERR, and `DEC_BUF` by the one store of its `storeIndex`. -/
theorem exec_decByte_frame {s t : State} {w : Byte} (h : exec (.decByte w) s = .next t) :
    t = { s with dec := t.dec, flags := { s.flags with seqerr := t.flags.seqerr } } ∧
    t.dec.buf = s.dec.storeInto w s.dec.buf := by
  rcases execDecByte_cases h with ⟨ha, rfl⟩ | ⟨-, d, hd, rfl⟩
  · have hb : s.dec.phase ≠ .body := fun hb => by simp [hb, DecPhase.active] at ha
    exact ⟨rfl, (Decoder.storeInto_of_none (Decoder.storeIndex_of_phase hb) w _).symm⟩
  · exact ⟨rfl, Decoder.accept_buf hd⟩

/-- Settles O39: the storage after the command is the storage before with the one store (`exec_decByte_frame`). -/
theorem decodeByteFrame : Obligations.DecodeByteFrame := by
  unfold Obligations.DecodeByteFrame
  intro s t w h
  obtain ⟨hframe, hbuf⟩ := exec_decByte_frame h
  rw [hbuf]
  exact ⟨hframe, fun a ha => Decoder.read_storeInto_of_ne ha w _, fun a ha => Decoder.read_storeInto_of_eq ha w _⟩

end Sys2Proof.Machine
end

section
/-! PROOF. The two halves (spec/10_state.md R45), the output streams (R40, R41) and the sticky flags (R37): each command
of a half writes only that half and the flags, and looks only at that half and the parameters. -/

namespace Sys2Proof.Machine

/-! ### What a command of one half does -/

/-- All that an encoder command can do to a state: new encoder registers, bytes sent, and the two flags it can set. -/
def State.encEffect (e : Encoder) (out : List Byte) (seqerr oversize : Bool) (s : State) : State :=
  { s with
    enc := e, tx := s.tx ++ out,
    flags := { s.flags with seqerr := s.flags.seqerr || seqerr, oversize := s.flags.oversize || oversize } }

/-- All that a decoder command can do to a state: a new decoder, and the one flag it can set. -/
def State.decEffect (d : Decoder) (seqerr : Bool) (s : State) : State :=
  { s with dec := d, flags := { s.flags with seqerr := s.flags.seqerr || seqerr } }

theorem State.raiseSeqerr_eq_encEffect (s : State) : s.raiseSeqerr = s.encEffect s.enc [] true false := by
  simp [raiseSeqerr, encEffect]

theorem State.raiseOversize_eq_encEffect (s : State) : s.raiseOversize = s.encEffect s.enc [] false true := by
  simp [raiseOversize, encEffect]

theorem State.raiseSeqerr_eq_decEffect (s : State) : s.raiseSeqerr = s.decEffect s.dec true := by
  simp [raiseSeqerr, decEffect]

theorem State.setDec_eq_decEffect (d : Decoder) (s : State) : s.setDec d = s.decEffect d false := by
  simp [setDec, decEffect]

/-- What an encoder command does is settled by the parameters and the encoder's registers (R45). -/
theorem exec_encoder {i : Instr} (hi : i.isEncoderCommand = true) (p : Params) (e : Encoder) :
    ∃ e' out seqerr oversize, ∀ s : State, s.params = p → s.enc = e →
      exec i s = .next (s.encEffect e' out seqerr oversize) := by
  cases i with
  | encStart n =>
    by_cases hp : e.phase = .body
    · refine ⟨e, [], true, false, ?_⟩
      rintro s rfl rfl
      simp only [exec, execEncStart, hp, ↓reduceIte, State.raiseSeqerr_eq_encEffect]
    · by_cases hn : n.toNat > Config.bufMax
      · refine ⟨e, [], false, true, ?_⟩
        rintro s rfl rfl
        simp only [exec, execEncStart, hp, hn, ↓reduceIte, State.raiseOversize_eq_encEffect]
      · by_cases h0 : n = 0
        · refine ⟨⟨.done, n + 1, n, 0⟩, [p.markerHi, p.markerLo] ++ esc p (hiByte (n + 1)) ++ esc p (loByte (n + 1)) ++
            esc p 0, false, false, ?_⟩
          rintro s rfl rfl
          simp only [exec, execEncStart, hp, hn, ↓reduceIte, if_pos h0]
          simp [State.encEffect, State.setEnc, State.escEmit, State.emit]
        · refine ⟨⟨.body, n + 1, n, 0⟩, [p.markerHi, p.markerLo] ++ esc p (hiByte (n + 1)) ++ esc p (loByte (n + 1)),
            false, false, ?_⟩
          rintro s rfl rfl
          simp only [exec, execEncStart, hp, hn, h0, ↓reduceIte]
          simp [State.encEffect, State.setEnc, State.escEmit, State.emit]
  | encByte b =>
    by_cases hp : e.phase = .body
    · by_cases hr : e.rem - 1 = 0
      · refine ⟨⟨.done, e.len, e.rem - 1, accumulate e.acc b⟩, esc p b ++ esc p (accumulate e.acc b), false, false, ?_⟩
        rintro s rfl rfl
        simp only [exec, execEncByte, hp, ne_eq, not_true, ↓reduceIte, if_pos hr]
        simp [State.encEffect, State.setEnc, State.escEmit, State.emit]
      · refine ⟨⟨.body, e.len, e.rem - 1, accumulate e.acc b⟩, esc p b, false, false, ?_⟩
        rintro s rfl rfl
        simp only [exec, execEncByte, hp, ne_eq, not_true, hr, ↓reduceIte]
        simp [State.encEffect, State.setEnc, State.escEmit, State.emit]
    · refine ⟨e, [], true, false, ?_⟩
      rintro s rfl rfl
      simp only [exec, execEncByte, ne_eq, hp, not_false_eq_true, ↓reduceIte, State.raiseSeqerr_eq_encEffect]
  | encAbort =>
    refine ⟨{ e with phase := .idle }, [], false, false, ?_⟩
    rintro s rfl rfl
    simp [exec, execEncAbort, State.encEffect, State.setEnc]
  | _ => cases hi

/-- What a decoder command does, its fault included, is settled by the parameters and the decoder (R45). -/
theorem exec_decoder {i : Instr} (hi : i.isDecoderCommand = true) (p : Params) (d : Decoder) :
    (∃ d' seqerr, ∀ s : State, s.params = p → s.dec = d → exec i s = .next (s.decEffect d' seqerr)) ∨
    ∃ f, ∀ s : State, s.params = p → s.dec = d → exec i s = .fault f := by
  cases i with
  | decStart =>
    refine .inl ⟨d.arm, false, ?_⟩
    rintro s rfl rfl
    simp only [exec, execDecStart, State.setDec_eq_decEffect]
  | decByte w =>
    by_cases ha : d.phase.active
    · cases hd : d.accept p w with
      | ok d' =>
        refine .inl ⟨d', false, ?_⟩
        rintro s rfl rfl
        simp only [exec, execDecByte, ha, hd, ↓reduceIte, State.setDec_eq_decEffect]
      | error f =>
        refine .inr ⟨f, ?_⟩
        rintro s rfl rfl
        simp only [exec, execDecByte, ha, hd, ↓reduceIte]
    · refine .inl ⟨d, true, ?_⟩
      rintro s rfl rfl
      simp only [exec, execDecByte, ha, Bool.false_eq_true, ↓reduceIte, State.raiseSeqerr_eq_decEffect]
  | decAbort =>
    by_cases ha : d.phase.active
    · refine .inl ⟨d.fail .timeout, false, ?_⟩
      rintro s rfl rfl
      simp only [exec, execDecAbort, ha, ↓reduceIte, State.setDec_eq_decEffect]
    · refine .inl ⟨d, true, ?_⟩
      rintro s rfl rfl
      simp only [exec, execDecAbort, ha, Bool.false_eq_true, ↓reduceIte, State.raiseSeqerr_eq_decEffect]
  | _ => cases hi

/-- The effects of the two halves commute: they share only SEQERR, which both can only set. -/
theorem State.encEffect_decEffect (e : Encoder) (out : List Byte) (q o : Bool) (d : Decoder) (r : Bool) (s : State) :
    (s.encEffect e out q o).decEffect d r = (s.decEffect d r).encEffect e out q o := by
  simp [encEffect, decEffect, Bool.or_right_comm]

/-- Settles O54: each half's command has an effect that its own half and the parameters settle (`exec_encoder`,
`exec_decoder`), and the effects commute. -/
theorem encoderAndDecoderAreIndependent : Obligations.EncoderAndDecoderAreIndependent := by
  unfold Obligations.EncoderAndDecoderAreIndependent
  intro s e d he hd
  obtain ⟨e', out, q, o, henc⟩ := exec_encoder he s.params s.enc
  have hes := henc s rfl rfl
  have hkeep : ∀ t, exec e s = .next t → t.dec = s.dec := fun t h => by
    cases hes.symm.trans h
    rfl
  have hset : ∀ x, exec e (s.setDec x) = onNext (State.setDec x) (exec e s) := fun x => by
    rw [henc (s.setDec x) rfl rfl, hes]
    rfl
  rcases exec_decoder hd s.params s.dec with ⟨d', r, hdec⟩ | ⟨f, hdec⟩
  · have hds := hdec s rfl rfl
    refine ⟨hkeep, fun t h => ?_, hset, fun x => ?_, ?_⟩
    · cases hds.symm.trans h
      exact ⟨rfl, rfl⟩
    · rw [hdec (s.setEnc x) rfl rfl, hds]
      rfl
    · calc execAll [e, d] s
        _ = .next ((s.encEffect e' out q o).decEffect d' r) := by simp [hes, hdec (s.encEffect e' out q o) rfl rfl]
        _ = .next ((s.decEffect d' r).encEffect e' out q o) := by rw [State.encEffect_decEffect]
        _ = execAll [d, e] s := by simp [hds, henc (s.decEffect d' r) rfl rfl]
  · have hds := hdec s rfl rfl
    refine ⟨hkeep, fun t h => (nomatch hds.symm.trans h), hset, fun x => ?_, ?_⟩
    · rw [hdec (s.setEnc x) rfl rfl, hds]
      rfl
    · calc execAll [e, d] s
        _ = .fault f := by
          rw [execAll_cons, hes, andThen_next, execAll_cons, hdec (s.encEffect e' out q o) rfl rfl]
          rfl
        _ = execAll [d, e] s := by
          rw [execAll_cons, hds]
          rfl

/-! ### The output streams -/

/-- A read appends its one value to RSP and can set ILLEGAL (R192, R193). -/
theorem State.respondOrIllegal_eq (v : Option Half) (s : State) :
    ∃ x, s.respondOrIllegal v = { s with rsp := s.rsp ++ [x], flags := (s.respondOrIllegal v).flags } := by
  cases v with
  | none => exact ⟨0, rfl⟩
  | some x => exact ⟨x, rfl⟩

/-- Everything a command that goes on can write, half by half. -/
theorem exec_cases_by_half {i : Instr} {s t : State} (h : exec i s = .next t) :
    (i.isEncoderCommand = true ∧ ∃ e out q o, t = s.encEffect e out q o) ∨
    (i.isDecoderCommand = true ∧ ∃ d q, t = s.decEffect d q) ∨
    (((∃ r, i = .rdReg r) ∨ ∃ k, i = .rdBuf k) ∧ ∃ x, t = { s with rsp := s.rsp ++ [x], flags := t.flags }) ∨
    (i = .nop ∧ t = s) ∨ (i = .clrStatus ∧ t = s.clearFlags) ∨
    (i = .reset ∧ t = { s with enc := Encoder.reset, dec := Decoder.reset, flags := Flags.clear }) := by
  by_cases he : i.isEncoderCommand = true
  · obtain ⟨e, out, q, o, henc⟩ := exec_encoder he s.params s.enc
    cases (henc s rfl rfl).symm.trans h
    exact .inl ⟨he, e, out, q, o, rfl⟩
  by_cases hd : i.isDecoderCommand = true
  · rcases exec_decoder hd s.params s.dec with ⟨d, q, hdec⟩ | ⟨f, hdec⟩ <;> cases (hdec s rfl rfl).symm.trans h
    exact .inr (.inl ⟨hd, d, q, rfl⟩)
  cases i with
  | nop => cases h; simp
  | rdReg r => cases h; exact .inr (.inr (.inl ⟨.inl ⟨r, rfl⟩, State.respondOrIllegal_eq _ s⟩))
  | rdBuf k => cases h; exact .inr (.inr (.inl ⟨.inr ⟨k, rfl⟩, State.respondOrIllegal_eq _ s⟩))
  | clrStatus => cases h; simp
  | reset => cases h; simp
  | encStart | encByte | encAbort => exact absurd rfl he
  | decStart | decByte | decAbort => exact absurd rfl hd

/-- Settles O50: of what commands can write (`exec_cases_by_half`), only the reads' part holds RSP. -/
theorem responseStreamGrowsOnlyByReads : Obligations.ResponseStreamGrowsOnlyByReads := by
  unfold Obligations.ResponseStreamGrowsOnlyByReads
  intro s t i h
  rcases exec_cases_by_half h with ⟨he, _, _, _, _, rfl⟩ | ⟨hd, _, _, rfl⟩ | ⟨hr, x, ht⟩ | ⟨rfl, rfl⟩ | ⟨rfl, rfl⟩ |
    ⟨rfl, rfl⟩
  · refine ⟨?_, fun _ _ => rfl⟩
    rintro (⟨r, rfl⟩ | ⟨k, rfl⟩) <;> cases he
  · refine ⟨?_, fun _ _ => rfl⟩
    rintro (⟨r, rfl⟩ | ⟨k, rfl⟩) <;> cases hd
  · refine ⟨fun _ => ⟨x, by rw [ht]⟩, fun h1 h2 => ?_⟩
    rcases hr with ⟨r, rfl⟩ | ⟨k, rfl⟩
    · exact absurd rfl (h1 r)
    · exact absurd rfl (h2 k)
  all_goals exact ⟨by simp, fun _ _ => rfl⟩

/-- Settles O51: of what commands can write (`exec_cases_by_half`), only the encoder's part holds TX, at its end; and
`ENC_ABORT` emits nothing. -/
theorem transmitStreamGrowsOnlyByEncoding : Obligations.TransmitStreamGrowsOnlyByEncoding := by
  unfold Obligations.TransmitStreamGrowsOnlyByEncoding
  intro s t i h
  rcases exec_cases_by_half h with ⟨he, _, out, _, _, ht⟩ | ⟨-, _, _, rfl⟩ | ⟨-, x, ht⟩ | ⟨-, rfl⟩ | ⟨-, rfl⟩ | ⟨-, rfl⟩
  · refine ⟨⟨out, by rw [ht]; rfl⟩, fun h1 h2 => ?_⟩
    cases i with
    | encStart n => exact absurd rfl (h1 n)
    | encByte b => exact absurd rfl (h2 b)
    | encAbort => cases h; rfl
    | _ => cases he
  · exact ⟨List.prefix_rfl, fun _ _ => rfl⟩
  · rw [ht]
    exact ⟨List.prefix_rfl, fun _ _ => rfl⟩
  all_goals exact ⟨List.prefix_rfl, fun _ _ => rfl⟩

/-! ### The sticky flags -/

/-- Every way a command that goes on can leave the flags: as they were, one of them set with nothing else changed (but a
read's one value), or all cleared (R37). -/
theorem exec_flags_cases {i : Instr} {s t : State} (h : exec i s = .next t) :
    t.flags = s.flags ∨ t = s.raiseSeqerr ∨ (i = .encStart 0xFFFF ∧ t = s.raiseOversize) ∨
    (((∃ r, i = .rdReg r) ∨ ∃ k, i = .rdBuf k) ∧ t = s.raiseIllegal.respond 0) ∨ i = .clrStatus ∨ i = .reset := by
  rcases exec_cases h with ⟨-, rfl⟩ | ⟨n, rfl, ⟨-, rfl⟩ | ⟨-, hn, rfl⟩ | ⟨-, -, -, rfl⟩ | ⟨-, -, rfl⟩⟩ |
    ⟨b, -, ⟨-, rfl⟩ | ⟨-, -, rfl⟩ | ⟨-, -, rfl⟩⟩ | ⟨-, rfl⟩ | ⟨-, rfl⟩ | ⟨w, -, ⟨-, rfl⟩ | ⟨-, d, -, rfl⟩⟩ |
    ⟨-, ⟨-, rfl⟩ | ⟨-, rfl⟩⟩ | ⟨r, rfl, ⟨v, -, rfl⟩ | ⟨-, rfl⟩⟩ | ⟨k, rfl, ⟨v, -, rfl⟩ | ⟨-, rfl⟩⟩ | ⟨rfl, -⟩ | ⟨rfl, -⟩
  case inr.inl.inr.inl =>
    have hmax : n = 0xFFFF := by
      simp only [Config.bufMax] at hn
      bv_omega
    exact .inr (.inr (.inl ⟨by rw [hmax], rfl⟩))
  all_goals simp [State.raiseSeqerr]

/-- Settles O47, by the ways a command can leave the flags (`exec_flags_cases`). -/
theorem stickyFlagsClearedOnlyByClearOrReset : Obligations.StickyFlagsClearedOnlyByClearOrReset := by
  unfold Obligations.StickyFlagsClearedOnlyByClearOrReset
  intro s t i h
  rcases exec_flags_cases h with hf | rfl | ⟨rfl, rfl⟩ | ⟨hr, rfl⟩ | rfl | rfl
  · simp +contextual [hf]
  · simp +contextual [State.raiseSeqerr]
  · simp +contextual [State.raiseOversize]
  · simp +contextual [hr, State.raiseIllegal, State.respond]
  · cases h
    simp [Flags.clear]
  · cases h
    simp [Flags.clear]

end Sys2Proof.Machine
end

section
/-! PROOF. No state crosses frames (spec/10_state.md R44): the encoder's registers are overwritten by `ENC_START`, the
decoder's by `DEC_START`, and of the stored bytes a frame reads only those it has written. -/

namespace Sys2Proof.Machine

/-! ### The encoder -/

/-- A sequence of encoder commands goes on, and what it does is settled by the parameters and the encoder's registers at
its start. -/
theorem execAll_encoder {is : List Instr} (his : ∀ i ∈ is, i.isEncoderCommand = true) (p : Params) (e : Encoder) :
    ∃ e' out, ∀ s : State, s.params = p → s.enc = e →
      ∃ t, execAll is s = .next t ∧ t.enc = e' ∧ t.tx = s.tx ++ out := by
  induction is generalizing e with
  | nil => exact ⟨e, [], fun s _ he => ⟨s, rfl, he, (List.append_nil _).symm⟩⟩
  | cons i is ih =>
    obtain ⟨e₁, out₁, q, o, hfirst⟩ := exec_encoder (his i List.mem_cons_self) p e
    obtain ⟨e₂, out₂, hrest⟩ := ih (fun j hj => his j (List.mem_cons_of_mem i hj)) e₁
    refine ⟨e₂, out₁ ++ out₂, fun s hp he => ?_⟩
    obtain ⟨t, ht, hte, htx⟩ := hrest (s.encEffect e₁ out₁ q o) hp rfl
    refine ⟨t, ?_, hte, ?_⟩
    · rw [execAll_cons, hfirst s hp he, andThen_next, ht]
    · rw [htx, ← List.append_assoc]
      rfl

/-- An accepted `ENC_START` does not look at the encoder's registers (R141). -/
theorem exec_encStart_setEnc {n : Half} {s : State} {e : Encoder} (hn : n ≠ 0xFFFF) (hs : s.enc.phase ≠ .body)
    (he : e.phase ≠ .body) : exec (.encStart n) (s.setEnc e) = exec (.encStart n) s := by
  have hmax : ¬n.toNat > Config.bufMax := by
    simp only [Config.bufMax]
    bv_omega
  have he' : (s.setEnc e).enc.phase ≠ .body := he
  simp only [exec, execEncStart, hs, he', hmax, ↓reduceIte]
  by_cases h0 : n = 0
  · rw [if_pos h0, if_pos h0]
    rfl
  · rw [if_neg h0, if_neg h0]
    rfl

/-! ### The decoder -/

/-- Two decoders in the same frame: the same registers, and the same bytes below `DEC_OUTLEN`, over whatever older bytes
are stored above it. -/
def Decoder.SameFrame (d₁ d₂ : Decoder) : Prop :=
  ∃ m : Memory, d₂ = d₁.setBuf m ∧ ∀ i < d₁.outlen.toNat, m.read i = d₁.buf.read i

theorem Decoder.SameFrame.registers {d₁ d₂ : Decoder} (h : d₁.SameFrame d₂) :
    { d₁ with buf := [] } = { d₂ with buf := [] } := by
  obtain ⟨m, rfl, -⟩ := h
  rfl

theorem Decoder.SameFrame.result_eq {d₁ d₂ : Decoder} (h : d₁.SameFrame d₂) : d₁.result = d₂.result := by
  obtain ⟨m, rfl, hm⟩ := h
  exact List.map_congr_left fun i hi => (hm i (List.mem_range.mp hi)).symm

/-- Armed decoders are in the same, empty frame (R171). -/
theorem Decoder.arm_sameFrame (d₁ d₂ : Decoder) : d₁.arm.SameFrame d₂.arm :=
  ⟨d₂.buf, rfl, fun i hi => by simp at hi⟩

theorem Decoder.settle_outlen_le (d : Decoder) : d.settle.outlen.toNat ≤ d.outlen.toNat := by
  rcases d.settle_cases with ⟨-, h⟩ | ⟨-, -, h⟩ | ⟨-, -, h⟩ | ⟨-, -, -, h⟩ | ⟨-, -, -, h⟩ | ⟨-, -, h⟩ | ⟨-, -, -, h⟩ <;>
    simp [h]

theorem Decoder.logical_outlen_le (p : Params) (w : Byte) (d : Decoder) :
    (d.logical p w).outlen.toNat ≤ d.outlen.toNat := by
  rcases d.logical_cases p w with ⟨-, h⟩ | ⟨-, h⟩ <;> rw [h]
  exact d.settle_outlen_le

theorem Decoder.filler_outlen_le (w : Byte) (d : Decoder) : (d.filler w).outlen.toNat ≤ d.outlen.toNat := by
  rcases d.filler_cases w with ⟨-, h⟩ | ⟨-, h⟩ <;> rw [h]
  · simp
  · exact Decoder.settle_outlen_le _

/-- `DEC_OUTLEN` rises past an index only by the store to it (R175). -/
theorem Decoder.bodyData_outlen {w : Byte} {d : Decoder} {i : Nat} (h : i < (d.bodyData w).outlen.toNat) :
    i < d.outlen.toNat ∨ d.storeIndex = some i := by
  unfold bodyData at h
  cases hi : d.storeIndex with
  | none => simp only [hi] at h; exact .inl h
  | some j =>
    obtain ⟨-, -, -, rfl⟩ := storeIndex_eq_some hi
    simp only [hi] at h
    have : i ≤ d.outlen.toNat := by bv_omega
    rcases Nat.lt_or_eq_of_le this with hlt | rfl
    · exact .inl hlt
    · exact .inr rfl

theorem Decoder.accept_outlen {p : Params} {w : Byte} {d d' : Decoder} (h : d.accept p w = .ok d') {i : Nat}
    (hi : i < d'.outlen.toNat) : i < d.outlen.toNat ∨ d.storeIndex = some i := by
  rcases d.accept_cases p w with ⟨-, ha⟩ | ⟨-, -, ha⟩ | ⟨_, -, -, ha⟩ <;> cases ha.symm.trans h
  · exact .inl (hi.trans_le (d.filler_outlen_le w))
  · rcases d.wireByte_cases p w with ⟨-, hw⟩ | ⟨-, -, -, hw⟩ | ⟨-, -, hw⟩ | ⟨-, hw⟩ | ⟨-, hw⟩ | ⟨-, hw⟩ | ⟨-, hw⟩ <;>
      rw [hw] at hi
    · exact .inl hi
    · exact .inl hi
    · simp at hi
    · exact .inl (hi.trans_le (Decoder.logical_outlen_le p w _))
    · exact .inl (hi.trans_le (Decoder.logical_outlen_le p w _))
    · exact bodyData_outlen (hi.trans_le (Decoder.logical_outlen_le p w _))
    · exact .inl hi

/-- Decoders in the same frame accept a wire byte alike, and stay in the same frame. -/
theorem Decoder.SameFrame.accept {d₁ d₂ d₁' : Decoder} (h : d₁.SameFrame d₂) {p : Params} {w : Byte}
    (ha : d₁.accept p w = .ok d₁') : ∃ d₂', d₂.accept p w = .ok d₂' ∧ d₁'.SameFrame d₂' := by
  obtain ⟨m, rfl, hm⟩ := h
  refine ⟨d₁'.setBuf (d₁.storeInto w m), by rw [accept_setBuf, ha]; rfl, d₁.storeInto w m, rfl, fun i hi => ?_⟩
  rw [accept_buf ha]
  by_cases hs : d₁.storeIndex = some i
  · rw [read_storeInto_of_eq hs, read_storeInto_of_eq hs]
  · rw [read_storeInto_of_ne hs, read_storeInto_of_ne hs]
    exact hm i ((accept_outlen ha hi).resolve_right hs)

theorem Decoder.SameFrame.exec_decByte {s₁ s₂ t₁ : State} (h : s₁.dec.SameFrame s₂.dec) (hp : s₁.params = s₂.params)
    {w : Byte} (ht : exec (.decByte w) s₁ = .next t₁) :
    ∃ t₂, exec (.decByte w) s₂ = .next t₂ ∧ t₁.dec.SameFrame t₂.dec := by
  have hphase : s₂.dec.phase = s₁.dec.phase := by
    obtain ⟨m, hm, -⟩ := h
    rw [hm, Decoder.setBuf_phase]
  simp only [exec, execDecByte, hphase, ← hp]
  rcases execDecByte_cases ht with ⟨ha, rfl⟩ | ⟨ha, d₁, hd, rfl⟩
  · exact ⟨s₂.raiseSeqerr, by simp [ha], h⟩
  · obtain ⟨d₂, hd₂, hsame⟩ := h.accept hd
    exact ⟨s₂.setDec d₂, by simp [ha, hd₂], hsame⟩

/-- Decoders in the same frame stay in the same frame, whatever wire bytes come. -/
theorem Decoder.SameFrame.execAll_decByte {s₁ s₂ t₁ : State} (h : s₁.dec.SameFrame s₂.dec)
    (hp : s₁.params = s₂.params) {ws : List Byte} (ht : execAll (ws.map .decByte) s₁ = .next t₁) :
    ∃ t₂, execAll (ws.map .decByte) s₂ = .next t₂ ∧ t₁.dec.SameFrame t₂.dec := by
  induction ws generalizing s₁ s₂ with
  | nil =>
    cases ht
    exact ⟨s₂, rfl, h⟩
  | cons w ws ih =>
    obtain ⟨u₁, hu₁, hrest⟩ := execAll_cons_eq_next ht
    obtain ⟨u₂, hu₂, hsame⟩ := h.exec_decByte hp hu₁
    obtain ⟨hp₁, -, -⟩ := exec_keeps_host hu₁
    obtain ⟨hp₂, -, -⟩ := exec_keeps_host hu₂
    rw [List.map_cons, execAll_cons, hu₂, andThen_next]
    exact ih hsame (by rw [hp₁, hp₂, hp]) hrest

/-- Settles O55: an accepted `ENC_START` may as well have found the other state's encoder registers, from where the
encoder commands do the same; and `DEC_START` puts both decoders in the same, empty frame. -/
theorem noStateCrossesFrames : Obligations.NoStateCrossesFrames := by
  unfold Obligations.NoStateCrossesFrames
  intro s₁ s₂ hs₁ hs₂ hp
  refine ⟨fun n bs h₁ h₂ hn => ?_, fun ws => ?_⟩
  · have henc : ∀ i ∈ Instr.encStart n :: bs.map .encByte, i.isEncoderCommand = true := by
      simp [Instr.isEncoderCommand]
    obtain ⟨e, out, hrun⟩ := execAll_encoder henc s₁.params s₁.enc
    obtain ⟨t₁, ht₁, he₁, htx₁⟩ := hrun s₁ rfl rfl
    obtain ⟨t₂, ht₂, he₂, htx₂⟩ := hrun (s₂.setEnc s₁.enc) hp.symm rfl
    rw [execAll_cons, exec_encStart_setEnc hn h₂ h₁, ← execAll_cons] at ht₂
    exact ⟨t₁, t₂, out, ht₁, ht₂, he₁.trans he₂.symm, htx₁, htx₂⟩
  · obtain ⟨t₁, ht₁, -⟩ := hs₁.execAll_next (decodeCommands ws)
    have harm : (s₁.setDec s₁.dec.arm).dec.SameFrame (s₂.setDec s₂.dec.arm).dec := Decoder.arm_sameFrame _ _
    obtain ⟨t₂, ht₂, hsame⟩ := harm.execAll_decByte hp ht₁
    exact ⟨t₁, t₂, ht₁, ht₂, hsame.registers, hsame.result_eq⟩

end Sys2Proof.Machine
end

section
/-! PROOF. The reads (spec/20_memory.md R69): a read changes nothing that it reads again, so a repeated read answers the
same. -/

namespace Sys2Proof.Machine

@[simp] theorem State.respondOrIllegal_dec (v : Option Half) (s : State) : (s.respondOrIllegal v).dec = s.dec := by
  cases v <;> rfl

/-- `RD_REG r` does not disturb its own register: a defined one (`STATUS` included) is read without setting a flag, and
a reserved number is reserved in every state (R42, R192). -/
theorem readReg_respondOrIllegal_self (s : State) (r : Byte) :
    readReg (s.respondOrIllegal (readReg s r)) r = readReg s r := by
  cases h : readReg s r with
  | none =>
    rw [readReg_eq_none] at h ⊢
    exact h
  | some v => exact h

/-- The answer to a read given twice: the same value is appended twice, the first answer can set ILLEGAL, and the second
leaves the flags as they are. -/
theorem State.respondOrIllegal_twice (v : Option Half) (s : State) :
    ∃ x, (s.respondOrIllegal v).rsp = s.rsp ++ [x] ∧
      ((s.respondOrIllegal v).respondOrIllegal v).rsp = s.rsp ++ [x, x] ∧
      s.respondOrIllegal v = { s with
        rsp := (s.respondOrIllegal v).rsp
        flags := { s.flags with illegal := (s.respondOrIllegal v).flags.illegal } } ∧
      ((s.respondOrIllegal v).respondOrIllegal v).flags = (s.respondOrIllegal v).flags := by
  cases v with
  | none => exact ⟨0, rfl, List.append_assoc .., rfl, rfl⟩
  | some x => exact ⟨x, rfl, List.append_assoc .., rfl, rfl⟩

/-- Settles O52: the second read names the same value as the first (`readReg_respondOrIllegal_self` for a register,
DEC_BUF and `DEC_OUTLEN` untouched for a buffer entry), so it is one answer given twice. -/
theorem readsAreIdempotent : Obligations.ReadsAreIdempotent := by
  unfold Obligations.ReadsAreIdempotent
  rintro s _ (⟨r, rfl⟩ | ⟨k, rfl⟩)
  · obtain ⟨x, htwice⟩ := State.respondOrIllegal_twice (readReg s r) s
    refine ⟨_, _, x, rfl, ?_, htwice⟩
    simp only [exec, execRdReg, readReg_respondOrIllegal_self]
  · obtain ⟨x, htwice⟩ := State.respondOrIllegal_twice (readBuf s.dec k) s
    refine ⟨_, _, x, rfl, ?_, htwice⟩
    simp only [exec, execRdBuf, State.respondOrIllegal_dec]

end Sys2Proof.Machine
end

section
/-! PROOF. Command words (spec/30_encoding.md R91 to R95): one criterion says which words are commands (the opcode is
defined, and `IMM` is within the bound of its format), decoding inverts encoding both ways, and an illegal word sets
ILLEGAL. -/

namespace Sys2Proof

/-! ### Commands -/

/-- An instruction's operand has its width, so every command is one an assembler accepts (R92, R97). -/
theorem Instr.wellFormed_eq_true (i : Instr) : i.wellFormed = true := by
  cases i with
  | encStart n | rdBuf n => exact decide_eq_true n.isLt
  | encByte b | decByte b | rdReg b => exact decide_eq_true b.isLt
  | _ => rfl

/-- Settles O12: operands have their widths, and decoding reads back the two fields that encoding joins. -/
theorem decodeOfEncodeIsTheCommand : Obligations.DecodeOfEncodeIsTheCommand := by
  unfold Obligations.DecodeOfEncodeIsTheCommand
  exact fun i => ⟨i.wellFormed_eq_true, decode_encode i⟩

/-! ### The fields of a word -/

theorem toNat_word (op : Byte) (imm : Half) : (op ++ imm : CmdWord).toNat = op.toNat * 65536 + imm.toNat :=
  Machine.toNat_append_cast op imm rfl

theorem toNat_half (hi lo : Byte) : (hi ++ lo : Half).toNat = hi.toNat * 256 + lo.toNat :=
  Machine.toNat_append_cast hi lo rfl

theorem word_append_inj {op op' : Byte} {imm imm' : Half} :
    (op ++ imm : CmdWord) = op' ++ imm' ↔ op = op' ∧ imm = imm' := by
  refine ⟨fun h => ⟨?_, ?_⟩, fun ⟨hop, himm⟩ => hop ▸ himm ▸ rfl⟩
  · rw [← opField_append op imm, h, opField_append]
  · rw [← immField_append op imm, h, immField_append]

theorem encode_eq_iff {i : Instr} {w : CmdWord} : encode i = w ↔ opField w = i.op ∧ immField w = i.imm := by
  rw [encode, ← opField_append_immField w, word_append_inj, opField_append, immField_append, eq_comm,
    eq_comm (a := i.imm)]

/-- How many values of `IMM` a format admits: zero alone when there is no operand, else those of the operand (R91). -/
def Format.immBound (f : Format) : Nat := f.operandBound.getD 1

/-- `IMM[15:8]` is zero exactly when `IMM` is a byte zero-extended (R91, R92). -/
theorem immHigh_eq_zero_iff (w : CmdWord) : immHigh w = 0 ↔ (immField w).toNat < 256 := by
  have hlow := (immLow w).isLt
  rw [← immHigh_append_immLow, toNat_half, ← BitVec.toNat_inj]
  change (immHigh w).toNat = 0 ↔ _
  omega

/-! ### What decoding answers -/

/-- The opcode is one of the eleven of R93, or decoding rejects it as reserved (R94). -/
theorem opField_eq_op_or_reserved (w : CmdWord) :
    (∃ i : Instr, opField w = i.op) ∨ decode w = .error (.reservedOpcode (opField w)) := by
  unfold decode
  split
  case h_1 h => exact .inl ⟨.nop, h⟩
  case h_2 h => exact .inl ⟨.encStart 0, h⟩
  case h_3 h => exact .inl ⟨.encByte 0, h⟩
  case h_4 h => exact .inl ⟨.encAbort, h⟩
  case h_5 h => exact .inl ⟨.decStart, h⟩
  case h_6 h => exact .inl ⟨.decByte 0, h⟩
  case h_7 h => exact .inl ⟨.decAbort, h⟩
  case h_8 h => exact .inl ⟨.rdReg 0, h⟩
  case h_9 h => exact .inl ⟨.rdBuf 0, h⟩
  case h_10 h => exact .inl ⟨.clrStatus, h⟩
  case h_11 h => exact .inl ⟨.reset, h⟩
  case h_12 => exact .inr rfl

/-- What a word with the opcode of `i` decodes to, when `r` is the answer: a command with the word's fields while `IMM`
is within the bound of the format, and else an error that names the must-be-zero bits. -/
def DecodesAs (i : Instr) (w : CmdWord) (r : Except IllegalWord Instr) : Prop :=
  ((immField w).toNat < i.format.immBound ∧ ∃ j : Instr, j.op = i.op ∧ j.imm = immField w ∧ r = .ok j) ∨
  (i.format.immBound ≤ (immField w).toNat ∧ r = .error (.mustBeZero (opField w)))

theorem decodeF0_decodesAs {i : Instr} (hf : i.format = .f0) (hi : i.imm = 0) (w : CmdWord) :
    DecodesAs i w (decodeF0 i w) := by
  rw [DecodesAs, hf, decodeF0]
  split
  case isTrue h => exact .inl ⟨by simp [h, Format.immBound, Format.operandBound], i, rfl, hi.trans h.symm, rfl⟩
  case isFalse h =>
    rw [← BitVec.toNat_inj] at h
    exact .inr ⟨Nat.pos_of_ne_zero h, rfl⟩

theorem decodeF8_decodesAs {f : Byte → Instr} {i : Instr} (hf : i.format = .f8) (hop : ∀ b, (f b).op = i.op)
    (himm : ∀ b, (f b).imm = 0#8 ++ b) (w : CmdWord) : DecodesAs i w (decodeF8 f w) := by
  rw [DecodesAs, hf, decodeF8]
  split
  case isTrue h =>
    refine .inl ⟨(immHigh_eq_zero_iff w).mp h, _, hop _, ?_, rfl⟩
    rw [himm, ← immHigh_append_immLow, h]
    rfl
  case isFalse h => exact .inr ⟨Nat.not_lt.mp (mt (immHigh_eq_zero_iff w).mpr h), rfl⟩

theorem decodeF16_decodesAs {f : Half → Instr} {i : Instr} (hf : i.format = .f16) (hop : ∀ v, (f v).op = i.op)
    (himm : ∀ v, (f v).imm = v) (w : CmdWord) : DecodesAs i w (decodeF16 f w) := by
  rw [DecodesAs, hf]
  exact .inl ⟨(immField w).isLt, _, hop _, himm _, rfl⟩

/-- Everything a word with a defined opcode can decode to (R91, R93, R94). -/
theorem decode_decodesAs {i : Instr} {w : CmdWord} (hop : opField w = i.op) : DecodesAs i w (decode w) := by
  unfold decode
  rw [hop]
  cases i with
  | encStart n | rdBuf n => exact decodeF16_decodesAs rfl (fun _ => by rfl) (fun _ => by rfl) w
  | encByte b | decByte b | rdReg b => exact decodeF8_decodesAs rfl (fun _ => by rfl) (fun _ => by rfl) w
  | _ => exact decodeF0_decodesAs rfl rfl w

theorem encode_of_decode {w : CmdWord} {j : Instr} (h : decode w = .ok j) : encode j = w := by
  rcases opField_eq_op_or_reserved w with ⟨i, hop⟩ | herr
  · rcases decode_decodesAs hop with ⟨-, k, hkop, hkimm, hk⟩ | ⟨-, herr⟩
    · obtain rfl : j = k := Except.ok.inj (h.symm.trans hk)
      exact encode_eq_iff.mpr ⟨hop.trans hkop.symm, hkimm.symm⟩
    · cases h.symm.trans herr
  · cases h.symm.trans herr

/-- With a defined opcode, the word is a command exactly while `IMM` is within the bound of the format. -/
theorem exists_decode_ok_iff {i : Instr} {w : CmdWord} (hop : opField w = i.op) :
    (∃ j, decode w = .ok j) ↔ (immField w).toNat < i.format.immBound := by
  rcases decode_decodesAs hop with ⟨hlt, j, -, -, hj⟩ | ⟨hle, herr⟩
  · exact iff_of_true ⟨j, hj⟩ hlt
  · exact iff_of_false (fun ⟨j, hj⟩ => nomatch hj.symm.trans herr) (Nat.not_lt.mpr hle)

theorem exists_decode_error_iff {i : Instr} {w : CmdWord} (hop : opField w = i.op) :
    (∃ r, decode w = .error r) ↔ i.format.immBound ≤ (immField w).toNat := by
  rcases decode_decodesAs hop with ⟨hlt, j, -, -, hj⟩ | ⟨hle, herr⟩
  · exact iff_of_false (fun ⟨r, hr⟩ => nomatch hr.symm.trans hj) (Nat.not_le.mpr hlt)
  · exact iff_of_true ⟨_, herr⟩ hle

/-- Settles O13: a word that decodes has the fields of the command (`DecodesAs`), and a word is its fields. -/
theorem encodeOfDecodeIsTheWord : Obligations.EncodeOfDecodeIsTheWord := by
  unfold Obligations.EncodeOfDecodeIsTheWord
  exact fun _ _ => encode_of_decode

/-! ### The opcode table -/

/-- The must-be-zero bits of `IMM` (R91). -/
def Format.zeroMask : Format → Half
  | .f0 => 0xFFFF
  | .f8 => 0xFF00
  | .f16 => 0x0000

/-- The must-be-zero bits are zero exactly when `IMM` is within the bound of the format. -/
theorem immField_and_zeroMask_eq_zero_iff (f : Format) (w : CmdWord) :
    immField w &&& f.zeroMask = 0 ↔ (immField w).toNat < f.immBound := by
  cases f with
  | f0 =>
    have hall : Format.f0.zeroMask = BitVec.allOnes 16 := rfl
    rw [hall, BitVec.and_allOnes, ← BitVec.toNat_inj]
    exact Nat.lt_one_iff.symm
  | f8 =>
    have hmask : Format.f8.zeroMask = BitVec.allOnes 8 ++ 0#8 := rfl
    have hand : immField w &&& Format.f8.zeroMask = immHigh w ++ 0#8 := by
      rw [hmask, ← immHigh_append_immLow, Laws.half_and, BitVec.and_allOnes, BitVec.and_zero]
    rw [hand]
    exact ⟨fun h => (immHigh_eq_zero_iff w).mp (half_append_inj (c := 0) (d := 0) h).1,
      fun h => by rw [(immHigh_eq_zero_iff w).mpr h]; rfl⟩
  | f16 => exact iff_of_true BitVec.and_zero (immField w).isLt

theorem Instr.tableMatch_eq (i : Instr) : i.tableMatch = i.op ++ 0#16 := by
  cases i <;> simp only [Instr.tableMatch, Instr.op] <;> decide

theorem Instr.tableMask_eq (i : Instr) : i.tableMask = BitVec.allOnes 8 ++ i.format.zeroMask := by
  cases i <;> simp only [Instr.tableMask, Instr.format] <;> decide

theorem Instr.tableMatch_inj {i j : Instr} : j.tableMatch = i.tableMatch ↔ j.op = i.op := by
  rw [tableMatch_eq, tableMatch_eq, word_append_inj, and_iff_left rfl]

/-- A word matches a row when it has the row's opcode and zeros where the row's format wants them. -/
theorem and_tableMask_eq_tableMatch_iff (w : CmdWord) (i : Instr) :
    w &&& i.tableMask = i.tableMatch ↔ opField w = i.op ∧ (immField w).toNat < i.format.immBound := by
  have hand : w &&& i.tableMask = opField w ++ (immField w &&& i.format.zeroMask) := by
    rw [i.tableMask_eq, ← opField_append_immField w, Laws.word_and, BitVec.and_allOnes, opField_append,
      immField_append]
  rw [hand, i.tableMatch_eq, word_append_inj]
  exact and_congr_right' (immField_and_zeroMask_eq_zero_iff _ w)

/-- Settles O14: matching a row and decoding into it are both having its opcode and an `IMM` within its bound. -/
theorem decodeAgreesWithOpcodeTable : Obligations.DecodeAgreesWithOpcodeTable := by
  unfold Obligations.DecodeAgreesWithOpcodeTable
  intro w i
  rw [and_tableMask_eq_tableMatch_iff]
  constructor
  · rintro ⟨hop, hlt⟩
    obtain ⟨j, hj⟩ := (exists_decode_ok_iff hop).mpr hlt
    obtain ⟨hjop, -⟩ := encode_eq_iff.mp (encode_of_decode hj)
    exact ⟨j, hj, Instr.tableMatch_inj.mpr (hjop.symm.trans hop)⟩
  · rintro ⟨j, hj, hrow⟩
    obtain ⟨hjop, -⟩ := encode_eq_iff.mp (encode_of_decode hj)
    have hop := hjop.trans (Instr.tableMatch_inj.mp hrow)
    exact ⟨hop, (exists_decode_ok_iff hop).mp ⟨j, hj⟩⟩

/-! ### Illegal words -/

/-- The reserved opcodes, as R94 lists them. -/
def ReservedOpcode (op : Nat) : Prop :=
  (0x04 ≤ op ∧ op ≤ 0x10) ∨ (0x14 ≤ op ∧ op ≤ 0x1F) ∨ (0x22 ≤ op ∧ op ≤ 0x2F) ∨ (0x31 ≤ op ∧ op ≤ 0x3E) ∨
    (0x40 ≤ op ∧ op ≤ 0xFF)

/-- A nonzero bit where the format of the opcode wants zero, as R94 lists the opcodes of F0 and F8. -/
def MustBeZeroBitSet (op imm : Nat) : Prop :=
  (op ∈ [0x00, 0x03, 0x11, 0x13, 0x30, 0x3F] ∧ imm ≠ 0) ∨ (op ∈ [0x02, 0x12, 0x20] ∧ 256 ≤ imm)

theorem reservedOpcode_of_ne_op {op : Byte} (h : ∀ i : Instr, op ≠ i.op) : ReservedOpcode op.toNat := by
  have key : ∀ i : Instr, op.toNat ≠ i.op.toNat := fun i h' => h i (BitVec.eq_of_toNat_eq h')
  have hnop : op.toNat ≠ 0x00 := key .nop
  have hencStart : op.toNat ≠ 0x01 := key (.encStart 0)
  have hencByte : op.toNat ≠ 0x02 := key (.encByte 0)
  have hencAbort : op.toNat ≠ 0x03 := key .encAbort
  have hdecStart : op.toNat ≠ 0x11 := key .decStart
  have hdecByte : op.toNat ≠ 0x12 := key (.decByte 0)
  have hdecAbort : op.toNat ≠ 0x13 := key .decAbort
  have hrdReg : op.toNat ≠ 0x20 := key (.rdReg 0)
  have hrdBuf : op.toNat ≠ 0x21 := key (.rdBuf 0)
  have hclrStatus : op.toNat ≠ 0x30 := key .clrStatus
  have hreset : op.toNat ≠ 0x3F := key .reset
  unfold ReservedOpcode
  omega

theorem not_reservedOpcode_op (i : Instr) : ¬ReservedOpcode i.op.toNat := by
  cases i <;> simp [ReservedOpcode, Instr.op]

theorem mustBeZeroBitSet_op_iff (i : Instr) (imm : Half) :
    MustBeZeroBitSet i.op.toNat imm.toNat ↔ i.format.immBound ≤ imm.toNat := by
  have himm := imm.isLt
  cases i <;>
    simp [MustBeZeroBitSet, Instr.op, Instr.format, Format.immBound, Format.operandBound, Nat.one_le_iff_ne_zero, himm]

/-- The words that decode to no command (R94). -/
theorem exists_decode_error_iff_listed (w : CmdWord) : (∃ r, decode w = .error r) ↔
    ReservedOpcode (opField w).toNat ∨ MustBeZeroBitSet (opField w).toNat (immField w).toNat := by
  by_cases hdef : ∃ i : Instr, opField w = i.op
  · obtain ⟨i, hop⟩ := hdef
    rw [exists_decode_error_iff hop, hop, or_iff_right (not_reservedOpcode_op i), mustBeZeroBitSet_op_iff]
  · have herr := (opField_eq_op_or_reserved w).resolve_left hdef
    exact iff_of_true ⟨_, herr⟩ (.inl (reservedOpcode_of_ne_op (not_exists.mp hdef)))

theorem Machine.acceptWord_of_error {w : CmdWord} {r : IllegalWord} (h : decode w = .error r) (s : State) :
    acceptWord w s = .next (illegalCommand s) := by
  rw [acceptWord, h]

/-- Settles O15: R94's list is `exists_decode_error_iff_listed`, and every word on it takes the port's error branch. -/
theorem illegalWordsSetIllegalAndNothingElse : Obligations.IllegalWordsSetIllegalAndNothingElse := by
  unfold Obligations.IllegalWordsSetIllegalAndNothingElse
  intro w s
  have hlisted := exists_decode_error_iff_listed w
  refine ⟨hlisted, fun h => ?_⟩
  obtain ⟨r, hr⟩ := hlisted.mpr h
  exact Machine.acceptWord_of_error hr s

/-- Settles O16, by evaluating the decoder on the nine words. -/
theorem sampleWordsDecode : Obligations.SampleWordsDecode := by
  unfold Obligations.SampleWordsDecode
  decide

end Sys2Proof
end

section
/-! PROOF. The assembler's words and refusals, and what the pseudo-instructions expand to (spec/30_encoding.md R97,
R98). -/

namespace Sys2Proof.Machine

/-! ### One command -/

theorem commandWord_eq_none_iff {c : Command} : commandWord c = none ↔ c.wellFormed = false := by
  rw [commandWord]
  split
  case isTrue h => simp [h]
  case isFalse h => simp [h]

theorem commandWord_eq_some {c : Command} {w : CmdWord} (h : commandWord c = some w) :
    c.wellFormed = true ∧ w = c.op ++ BitVec.ofNat 16 (c.operand.getD 0) := by
  rw [commandWord] at h
  split at h
  case isTrue hc => exact ⟨hc, (Option.some.inj h).symm⟩
  case isFalse => cases h

/-- An operand that is accepted fits in `IMM`, in every format. -/
theorem operand_lt_of_wellFormed {c : Command} (h : c.wellFormed = true) : c.operand.getD 0 < 65536 := by
  obtain ⟨op, format, operand⟩ := c
  cases operand with
  | none => exact Nat.zero_lt_succ _
  | some v =>
    cases format with
    | f0 => cases h
    | f8 => exact Nat.lt_trans (of_decide_eq_true h) (by decide)
    | f16 => exact of_decide_eq_true h

/-- The operand, extended to 16 bits, is `IMM` (R92). -/
theorem ofNat_operand_eq_imm (i : Instr) : BitVec.ofNat 16 (i.operand.getD 0) = i.imm := by
  cases i with
  | encStart n | rdBuf n => exact BitVec.ofNat_toNat 16 n
  | encByte b | decByte b | rdReg b =>
    apply BitVec.eq_of_toNat_eq
    have hmod : (BitVec.ofNat 16 b.toNat).toNat = b.toNat := Nat.mod_eq_of_lt (Nat.lt_trans b.isLt (by decide))
    exact hmod.trans (by simp [Instr.imm, toNat_half])
  | _ => rfl

/-- A format with an operand refuses exactly the values from its bound on. -/
theorem commandWord_some_eq_none_iff {f : Format} {bound : Nat} (hf : f.operandBound = some bound) (op : Byte)
    (v : Nat) : commandWord ⟨op, f, some v⟩ = none ↔ bound ≤ v := by
  rw [commandWord_eq_none_iff, Command.wellFormed, hf]
  exact decide_eq_false_iff_not.trans Nat.not_lt

/-- Settles O17: the word is `OP` above the operand, which fits in `IMM` whenever the command is well formed. -/
theorem assemblerWordsAndRefusals : Obligations.AssemblerWordsAndRefusals := by
  unfold Obligations.AssemblerWordsAndRefusals
  refine ⟨fun i => ?_, fun op v => ⟨?_, ?_, rfl⟩, fun _ => ⟨rfl, rfl⟩, fun c w h => ?_⟩
  · have hwf : i.toCommand.wellFormed = true := i.wellFormed_eq_true
    rw [commandWord, if_pos hwf]
    exact congrArg (some <| i.op ++ ·) (ofNat_operand_eq_imm i)
  · exact commandWord_some_eq_none_iff rfl op v
  · exact commandWord_some_eq_none_iff rfl op v
  · obtain ⟨hwf, rfl⟩ := commandWord_eq_some h
    rw [toNat_word, BitVec.toNat_ofNat, Nat.mod_eq_of_lt (operand_lt_of_wellFormed hwf)]

/-! ### Pseudo-instructions -/

/-- Operands that are the values of bytes are those bytes. -/
theorem operandBytes_map_toNat (bs : List Byte) : operandBytes (bs.map BitVec.toNat) = some bs := by
  unfold operandBytes
  induction bs with
  | nil => rfl
  | cons b bs ih => simp [List.mapM_cons, ih, b.isLt]

/-- A mnemonic of R98 assembles to the words of its expansion. -/
theorem assembleCommand_of_expand {name : List Char} {vs : List Nat} {ps : Pseudo} {is : List Instr}
    (hrow : mnemonicRow name = none) (hps : pseudoOf name vs = some (some ps)) (his : ps.expand = some is) :
    assembleCommand name vs = .ok (is.map encode) := by
  simp only [assembleCommand, hrow, hps, Option.bind_some, his]

/-- Settles O18: the operands are read back as the bytes they are the values of, and the expansion is encoded. -/
theorem pseudoInstructionsExpand : Obligations.PseudoInstructionsExpand := by
  unfold Obligations.PseudoInstructionsExpand
  refine ⟨fun buf hbuf => ?_, fun wire => ?_, rfl, rfl⟩
  · have hps : pseudoOf "ENC_FRAME".toList (buf.map BitVec.toNat) = some (some (.encFrame buf)) := by
      rw [pseudoOf, if_pos rfl, operandBytes_map_toNat]
      rfl
    exact assembleCommand_of_expand rfl hps (if_pos hbuf)
  · have hps : pseudoOf "DEC_FRAME".toList (wire.map BitVec.toNat) = some (some (.decFrame wire)) := by
      rw [pseudoOf, if_neg (by decide), if_pos rfl, operandBytes_map_toNat]
      rfl
    exact assembleCommand_of_expand rfl hps rfl

end Sys2Proof.Machine
end

section
/-! PROOF. The escaping invariant (spec/30_encoding.md R88, spec/40_primitives.md R115). -/

namespace Sys2Proof.Machine

theorem escAll_cons_markerHi (p : Params) (s : List Byte) :
    escAll p (p.markerHi :: s) = p.markerHi :: Config.escFill :: escAll p s := by
  rw [escAll_cons, esc, if_pos rfl]
  rfl

theorem escAll_cons_of_ne {p : Params} {x : Byte} (hx : x ≠ p.markerHi) (s : List Byte) :
    escAll p (x :: s) = x :: escAll p s := by
  rw [escAll_cons, esc, if_neg hx]
  rfl

/-- In an escaped sequence every `MARKER_HI` is followed at once by the filler (R115); the filler is itself no
`MARKER_HI` in a legal instance. -/
theorem escAll_filler_after_markerHi {p : Params} (hp : p.Legal) (s : List Byte) (i : Nat)
    (h : (escAll p s)[i]? = some p.markerHi) : (escAll p s)[i + 1]? = some Config.escFill := by
  induction s generalizing i with
  | nil => cases h
  | cons x s ih =>
    by_cases hx : x = p.markerHi
    · subst hx
      rw [escAll_cons_markerHi] at h ⊢
      match i with
      | 0 => rfl
      | 1 => exact absurd (Option.some.inj h).symm hp
      | i + 2 => exact ih i h
    · rw [escAll_cons_of_ne hx] at h ⊢
      match i with
      | 0 => exact absurd (Option.some.inj h) hx
      | i + 1 => exact ih i h

/-- `Encode`'s domain and its value there (R130, R132). -/
theorem encodeFrame_eq_some_iff {p : Params} {buf wire : List Byte} : encodeFrame p buf = some wire ↔
    buf.length ≤ Config.bufMax ∧ wire = p.markerHi :: p.markerLo :: escAll p (frameBody buf) := by
  rw [encodeFrame]
  split
  case isTrue h => exact ⟨fun hw => ⟨h, (Option.some.inj hw).symm⟩, fun ⟨_, hw⟩ => congrArg some hw.symm⟩
  case isFalse h => exact ⟨nofun, fun ⟨hle, _⟩ => absurd hle h⟩

/-- Settles O6: after the marker's two bytes a frame is an escaped sequence. -/
theorem encodedFrameEscapesMarkerHi : Obligations.EncodedFrameEscapesMarkerHi := by
  unfold Obligations.EncodedFrameEscapesMarkerHi
  intro p buf wire hp h
  obtain ⟨-, rfl⟩ := encodeFrame_eq_some_iff.mp h
  refine ⟨rfl, fun i hi hmarker => ?_⟩
  obtain ⟨i, rfl⟩ := Nat.exists_eq_add_of_le' hi
  exact escAll_filler_after_markerHi hp _ i hmarker

end Sys2Proof.Machine
end

section
/-! PROOF. The XOR-8 accumulator (spec/40_primitives.md R111): the checksum is a homomorphism from sequences to bytes
under exclusive-or, and flipping bits of one byte flips those bits of the checksum. -/

namespace Sys2Proof.Machine

/-! ### The exclusive-or of bytes -/

theorem accumulate_zero (a : Byte) : accumulate a 0x00 = a := BitVec.xor_zero

theorem accumulate_self (a : Byte) : accumulate a a = 0x00 := BitVec.xor_self

theorem accumulate_comm (a b : Byte) : accumulate a b = accumulate b a := BitVec.xor_comm a b

theorem accumulate_assoc (a b c : Byte) : accumulate (accumulate a b) c = accumulate a (accumulate b c) :=
  BitVec.xor_assoc a b c

theorem accumulate_right_comm (a b c : Byte) : accumulate (accumulate a b) c = accumulate (accumulate a c) b := by
  rw [accumulate_assoc, accumulate_comm b c, ← accumulate_assoc]

/-- Accumulating anything but zero changes the value: what detects an error. -/
theorem accumulate_eq_self_iff {a b : Byte} : accumulate a b = a ↔ b = 0x00 := by
  nth_rewrite 2 [← accumulate_zero a]
  exact BitVec.xor_right_inj a

/-! ### The checksum of a sequence -/

theorem foldXor_append (s t : List Byte) : foldXor (s ++ t) = accumulate (foldXor s) (foldXor t) := by
  rw [foldXor, List.foldl_append, foldl_accumulate]
  rfl

/-- A sequence with its checksum after it sums to zero, which is what `Decode` tests (R155). -/
theorem foldXor_append_checksum (s : List Byte) : foldXor (s ++ [foldXor s]) = 0x00 := by
  rw [foldXor_append, foldXor_cons, foldXor_nil, accumulate_zero, accumulate_self]

theorem foldXor_eq_of_perm {s t : List Byte} (h : s.Perm t) : foldXor s = foldXor t :=
  h.foldl_eq' (fun x _ y _ a => accumulate_right_comm a x y) 0x00

/-- Equal bytes cancel in pairs. -/
theorem foldXor_replicate_of_even {n : Nat} (h : n % 2 = 0) (b : Byte) : foldXor (List.replicate n b) = 0x00 := by
  obtain ⟨k, rfl⟩ := Nat.even_iff.mpr h
  rw [← List.replicate_append_replicate, foldXor_append, accumulate_self]

/-! ### Flipped bits -/

/-- The sequence with the bits of the mask `m` flipped in its byte `i`, if it has one. -/
def flipAt (m : Byte) (s : List Byte) (i : Nat) : List Byte := s.modify i (fun b => b ^^^ m)

@[simp] theorem length_flipAt (m : Byte) (s : List Byte) (i : Nat) : (flipAt m s i).length = s.length :=
  List.length_modify ..

/-- Flipping bits of one byte flips the same bits of the checksum, wherever the byte stands. -/
theorem foldXor_flipAt (m : Byte) {s : List Byte} {i : Nat} (hi : i < s.length) :
    foldXor (flipAt m s i) = accumulate (foldXor s) m := by
  induction s generalizing i with
  | nil => cases hi
  | cons b s ih =>
    cases i with
    | zero =>
      calc foldXor (flipAt m (b :: s) 0)
        _ = accumulate (accumulate b m) (foldXor s) := foldXor_cons _ s
        _ = accumulate (foldXor (b :: s)) m := by rw [foldXor_cons, accumulate_right_comm]
    | succ i =>
      calc foldXor (flipAt m (b :: s) (i + 1))
        _ = accumulate b (foldXor (flipAt m s i)) := foldXor_cons b _
        _ = accumulate (foldXor (b :: s)) m := by
          rw [ih (Nat.lt_of_succ_lt_succ hi), foldXor_cons, accumulate_assoc]

/-- After several flips with one mask the checksum has taken the mask once for each. -/
theorem foldXor_foldl_flipAt (m : Byte) {s : List Byte} {is : List Nat} (his : ∀ i ∈ is, i < s.length) :
    foldXor (is.foldl (flipAt m) s) = accumulate (foldXor s) (foldXor (List.replicate is.length m)) := by
  induction is generalizing s with
  | nil => exact (accumulate_zero _).symm
  | cons i is ih =>
    obtain ⟨hi, his⟩ := List.forall_mem_cons.mp his
    rw [List.foldl_cons, ih (by simpa using his), foldXor_flipAt m hi, accumulate_assoc, List.length_cons,
      List.replicate_succ, foldXor_cons]

theorem twoPow_ne_zero {k : Nat} (hk : k < 8) : BitVec.twoPow 8 k ≠ 0 := fun h => by
  have hval := congrArg BitVec.toNat h
  rw [BitVec.toNat_twoPow_of_lt hk] at hval
  exact absurd hval (Nat.two_pow_pos k).ne'

/-- Settles O1: one flip accumulates its nonzero mask onto the checksum (`foldXor_flipAt`); the masks of an even number
of flips cancel in pairs (`foldXor_replicate_of_even`). -/
theorem xorAccumulatorLaws : Obligations.XorAccumulatorLaws := by
  unfold Obligations.XorAccumulatorLaws
  refine ⟨fun a b c => ⟨accumulate_zero a, accumulate_self a, accumulate_comm a b, accumulate_assoc a b c⟩,
    foldXor_append, foldXor_append_checksum, fun _ _ => foldXor_eq_of_perm, fun s i k hi hk => ?_,
    fun s is k his _ heven => ?_⟩
  · have hflip := foldXor_flipAt (BitVec.twoPow 8 k) hi
    exact fun h => twoPow_ne_zero hk (accumulate_eq_self_iff.mp (hflip.symm.trans h))
  · have hflips := foldXor_foldl_flipAt (BitVec.twoPow 8 k) his
    rw [foldXor_replicate_of_even heven, accumulate_zero] at hflips
    exact hflips

end Sys2Proof.Machine
end

section
/-! PROOF. Escaping and unescaping (spec/40_primitives.md R115, R117, R118): the laws of `EscAll`, an equation of
`ReadU` for each form of the input, and that reading undoes escaping. -/

namespace Sys2Proof.Machine

/-! ### Escaping -/

theorem escAll_append (p : Params) (s t : List Byte) : escAll p (s ++ t) = escAll p s ++ escAll p t := by
  induction s with
  | nil => rfl
  | cons x s ih => rw [List.cons_append, escAll_cons, ih, escAll_cons, List.append_assoc]

/-- Escaping adds one byte for each `MARKER_HI`. -/
theorem length_escAll (p : Params) (s : List Byte) : (escAll p s).length = s.length + s.count p.markerHi := by
  induction s with
  | nil => rfl
  | cons x s ih =>
    by_cases hx : x = p.markerHi
    · subst hx
      rw [escAll_cons_markerHi, List.count_cons_self]
      simp only [List.length_cons, ih]
      omega
    · rw [escAll_cons_of_ne hx, List.count_cons_of_ne hx]
      simp only [List.length_cons, ih]
      omega

/-- Settles O2: the last law is the escaping invariant (`escAll_filler_after_markerHi`). -/
theorem escapeLaws : Obligations.EscapeLaws := by
  unfold Obligations.EscapeLaws
  exact fun p hp => ⟨escAll_nil p, escAll_cons p, escAll_append p, length_escAll p, escAll_filler_after_markerHi hp⟩

/-! ### Unescaping -/

@[simp] theorem readU_nil (p : Params) : readU p [] = .failed .timeout [] := rfl

theorem readU_cons_of_ne {p : Params} {w : Byte} (hw : w ≠ p.markerHi) (ws : List Byte) :
    readU p (w :: ws) = .got w ws := by
  simp [readU, hw]

@[simp] theorem readU_markerHi_nil (p : Params) : readU p [p.markerHi] = .failed .timeout [] := by
  simp [readU]

@[simp] theorem readU_markerHi_escFill (p : Params) (ws : List Byte) :
    readU p (p.markerHi :: Config.escFill :: ws) = .got p.markerHi ws := by
  simp [readU]

theorem readU_markerHi_of_ne (p : Params) {f : Byte} (hf : f ≠ Config.escFill) (ws : List Byte) :
    readU p (p.markerHi :: f :: ws) = .failed .badEscape ws := by
  simp [readU, hf]

/-- Settles O3, an equation for each form of the input; `MARKER_HI` of a legal instance is no filler. -/
theorem unescapingRead : Obligations.UnescapingRead := by
  unfold Obligations.UnescapingRead
  exact fun p w f ws => ⟨readU_nil p, fun hw => readU_cons_of_ne hw ws, readU_markerHi_nil p,
    readU_markerHi_escFill p ws, fun hf => readU_markerHi_of_ne p hf ws, fun hp => readU_markerHi_of_ne p hp ws⟩

/-! ### Unescaping undoes escaping -/

/-- One read takes the whole escape of one byte. -/
theorem readU_esc_append (p : Params) (x : Byte) (ws : List Byte) : readU p (esc p x ++ ws) = .got x ws := by
  unfold esc
  split
  next hx =>
    subst hx
    exact readU_markerHi_escFill p ws
  next hx => exact readU_cons_of_ne hx ws

theorem readMany_escAll_append (p : Params) (s rest : List Byte) :
    readMany p s.length (escAll p s ++ rest) = .got s rest := by
  induction s with
  | nil => rfl
  | cons x s ih =>
    rw [escAll_cons, List.append_assoc, List.length_cons, readMany, readU_esc_append, Reading.andThen_got, ih,
      Reading.andThen_got]

/-- Settles O4, by induction on the sequence, one escaped byte a read. -/
theorem unescapeInvertsEscape : Obligations.UnescapeInvertsEscape := by
  unfold Obligations.UnescapeInvertsEscape
  exact readMany_escAll_append

end Sys2Proof.Machine
end

section
/-! PROOF. The block has no traps (spec/40_primitives.md R119, spec/10_state.md R43). -/

namespace Sys2Proof.Machine

/-- Settles O58: the end of the program and an illegal word go on in every state, and a command under the invariants
(`State.Inv.step_next`), where `DEC_BUF` has an entry for every store. -/
theorem stepNeverStops : Obligations.StepNeverStops := by
  unfold Obligations.StepNeverStops
  exact fun _ hs => hs.step_next

end Sys2Proof.Machine
end

section
/-! PROOF. The encoder commands one by one (spec/41_encoder.md R141 to R143), and the domain and length of `Encode`
(R132, R133). -/

namespace Sys2Proof.Machine

/-! ### What a command does, guard by guard -/

/-- SEQERR comes before OVERSIZE (R141). -/
theorem exec_encStart_of_body {s : State} (hp : s.enc.phase = .body) (n : Half) :
    exec (.encStart n) s = .next s.raiseSeqerr := by
  simp only [exec, execEncStart, if_pos hp]

theorem exec_encStart_of_oversize {s : State} (hp : s.enc.phase ≠ .body) :
    exec (.encStart 0xFFFF) s = .next s.raiseOversize := by
  simp only [exec, execEncStart, if_neg hp]
  rfl

/-- The one operand that is too long is `0xFFFF` (R141). -/
theorem not_bufMax_lt_toNat {n : Half} (hn : n ≠ 0xFFFF) : ¬n.toNat > Config.bufMax := by
  simp only [Config.bufMax]
  bv_omega

theorem exec_encStart_of_nonempty {s : State} {n : Half} (hp : s.enc.phase ≠ .body) (hn : n ≠ 0xFFFF) (h0 : n ≠ 0) :
    exec (.encStart n) s = .next ((((s.emit [s.params.markerHi, s.params.markerLo]).escEmit (hiByte (n + 1))).escEmit
      (loByte (n + 1))).setEnc ⟨.body, n + 1, n, 0x00⟩) := by
  simp only [exec, execEncStart, if_neg hp, if_neg (not_bufMax_lt_toNat hn), if_neg h0]

/-- An empty buffer's frame is complete at once: length 1, checksum 0 (R141). -/
theorem exec_encStart_zero {s : State} (hp : s.enc.phase ≠ .body) :
    exec (.encStart 0) s = .next (((((s.emit [s.params.markerHi, s.params.markerLo]).escEmit 0x00).escEmit
      0x01).escEmit 0x00).setEnc ⟨.done, 1, 0, 0x00⟩) := by
  simp only [exec, execEncStart, if_neg hp]
  rfl

theorem exec_encByte_of_ne_body {s : State} (hp : s.enc.phase ≠ .body) (b : Byte) :
    exec (.encByte b) s = .next s.raiseSeqerr := by
  simp only [exec, execEncByte, if_pos hp]

theorem exec_encByte_of_owed {s : State} (hp : s.enc.phase = .body) (hr : 2 ≤ s.enc.rem.toNat) (b : Byte) :
    exec (.encByte b) s =
      .next ((s.escEmit b).setEnc ⟨.body, s.enc.len, s.enc.rem - 1, accumulate s.enc.acc b⟩) := by
  have hrem : s.enc.rem - 1 ≠ 0 := by bv_omega
  simp only [exec, execEncByte, if_neg (not_not_intro hp), if_neg hrem]

/-- The checksum follows the last byte in the same command (R142). -/
theorem exec_encByte_of_last {s : State} (hp : s.enc.phase = .body) (hr : s.enc.rem = 1) (b : Byte) :
    exec (.encByte b) s = .next (((s.escEmit b).escEmit (accumulate s.enc.acc b)).setEnc
      ⟨.done, s.enc.len, 0, accumulate s.enc.acc b⟩) := by
  simp only [exec, execEncByte, if_neg (not_not_intro hp), hr]
  rfl

theorem length_esc (p : Params) (x : Byte) : (esc p x).length = if p.markerHi = x then 2 else 1 := by
  simp only [esc, eq_comm (a := x)]
  split <;> rfl

/-- Settles O29: the three refusals and the two accepted forms, guard by guard; the counts are those of the two or three
escapes appended. -/
theorem encodeStartEffect : Obligations.EncodeStartEffect := by
  unfold Obligations.EncodeStartEffect
  refine fun s n => ⟨fun hp => exec_encStart_of_body hp n, fun hp hn => hn ▸ exec_encStart_of_oversize hp,
    fun hp hn h0 => exec_encStart_of_nonempty hp hn h0, fun hp => exec_encStart_zero hp,
    fun t hlegal hp hn ht => ⟨fun h0 => ?_, fun h0 => ?_⟩⟩
  · cases (exec_encStart_of_nonempty hp hn h0).symm.trans ht
    simp only [State.setEnc_tx, State.escEmit_tx, State.emit_tx, List.length_append, List.length_cons, List.length_nil,
      length_esc]
    split_ifs <;> omega
  · subst h0
    have hzero : ¬s.params.markerHi = 0x00 := hlegal
    cases (exec_encStart_zero hp).symm.trans ht
    simp only [State.setEnc_tx, State.escEmit_tx, State.emit_tx, State.escEmit_params, State.emit_params,
      List.length_append, List.length_cons, List.length_nil, length_esc, if_neg hzero]
    split_ifs <;> omega

/-- Settles O30: the refusal, a byte with more owed, and the last byte. -/
theorem encodeByteEffect : Obligations.EncodeByteEffect := by
  unfold Obligations.EncodeByteEffect
  exact fun s b => ⟨fun hp => exec_encByte_of_ne_body hp b, fun hp hr => exec_encByte_of_owed hp hr b,
    fun hp hr => exec_encByte_of_last hp hr b⟩

/-- Settles O31: `ENC_ABORT` has no guard and no other effect. -/
theorem encodeAbortEffect : Obligations.EncodeAbortEffect := by
  unfold Obligations.EncodeAbortEffect
  exact fun _ => rfl

/-! ### `Encode` -/

/-- Two length bytes, the buffer and the checksum (R80). -/
theorem length_frameBody (buf : List Byte) : (frameBody buf).length = 3 + buf.length := by
  simp only [frameBody, List.length_append, List.length_cons, List.length_nil]
  omega

/-- Settles O5: the marker takes two bytes, and escaping the body adds one for each `MARKER_HI` in it
(`length_escAll`). -/
theorem encodeDomainAndLength : Obligations.EncodeDomainAndLength := by
  unfold Obligations.EncodeDomainAndLength
  refine fun p buf => ⟨fun hlong => if_neg (Nat.not_le.mpr hlong), fun hbuf =>
    ⟨_, encodeFrame_eq_some_iff.mpr ⟨hbuf, rfl⟩, ?_⟩⟩
  rw [List.length_cons, List.length_cons, length_escAll, length_frameBody, frameBody, frameLen]
  omega

end Sys2Proof.Machine
end

section
/-! PROOF. The encoder commands emit what `Encode` gives (spec/41_encoder.md R140): first the commands of one frame by
themselves, then with other commands among them, which the encoder does not notice. -/

namespace Sys2Proof.Machine

/-! ### One half's commands among others -/

/-- A relation that holds of a run of one half's commands by themselves and of the same run with other commands (but
`RESET`) among them: it holds before, both runs' own commands keep it, and the other commands keep it too. -/
theorem execAll_of_filter {half : Instr → Bool} {R : State → State → Prop}
    (hown : ∀ {i s u s' u'}, half i = true → R s u → exec i s = .next s' → exec i u = .next u' → R s' u')
    (hother : ∀ {i s u s'}, half i = false → i ≠ .reset → R s u → exec i s = .next s' → R s' u)
    {is : List Instr} (hreset : .reset ∉ is) {s u u' : State} (hs : s.Inv) (hR : R s u)
    (hu : execAll (is.filter half) u = .next u') : ∃ t, execAll is s = .next t ∧ R t u' := by
  induction is generalizing s u with
  | nil =>
    cases hu
    exact ⟨s, rfl, hR⟩
  | cons i is ih =>
    obtain ⟨hi, his⟩ := not_or.mp (List.mem_cons.not.mp hreset)
    obtain ⟨s₁, hs₁⟩ := hs.exec_next i
    rw [execAll_cons, hs₁, andThen_next]
    cases hhalf : half i with
    | true =>
      rw [List.filter_cons_of_pos hhalf] at hu
      obtain ⟨u₁, hu₁, hrest⟩ := execAll_cons_eq_next hu
      exact ih his (hs.exec_inv hs₁) (hown hhalf hR hs₁ hu₁) hrest
    | false =>
      rw [List.filter_cons_of_neg (by simp [hhalf])] at hu
      exact ih his (hs.exec_inv hs₁) (hother hhalf (Ne.symm hi) hR hs₁) hu

/-- Two states between which an encoder command sees no difference, with the same bytes sent. -/
structure State.SameEncoder (s u : State) : Prop where
  params : s.params = u.params
  enc : s.enc = u.enc
  tx : s.tx = u.tx

theorem State.SameEncoder.exec_own {i : Instr} {s u s' u' : State} (hi : i.isEncoderCommand = true)
    (h : s.SameEncoder u) (hs : exec i s = .next s') (hu : exec i u = .next u') : s'.SameEncoder u' := by
  obtain ⟨e, out, q, o, heffect⟩ := exec_encoder hi u.params u.enc
  cases (heffect s h.params h.enc).symm.trans hs
  cases (heffect u rfl rfl).symm.trans hu
  exact ⟨h.params, rfl, congrArg (· ++ out) h.tx⟩

/-- No other command but `RESET` writes what the encoder commands read (R45). -/
theorem State.SameEncoder.exec_other {i : Instr} {s u s' : State} (hi : i.isEncoderCommand = false)
    (hreset : i ≠ .reset) (h : s.SameEncoder u) (hs : exec i s = .next s') : s'.SameEncoder u := by
  rcases exec_cases_by_half hs with ⟨henc, -⟩ | ⟨-, d, q, rfl⟩ | ⟨-, x, hx⟩ | ⟨-, rfl⟩ | ⟨-, rfl⟩ | ⟨rfl, -⟩
  · rw [hi] at henc
    cases henc
  · exact ⟨h.params, h.enc, h.tx⟩
  · rw [hx]
    exact ⟨h.params, h.enc, h.tx⟩
  · exact h
  · exact ⟨h.params, h.enc, h.tx⟩
  · exact absurd rfl hreset

/-! ### The commands of one frame -/

theorem State.emit_emit (bs bs' : List Byte) (s : State) : (s.emit bs).emit bs' = s.emit (bs ++ bs') := by
  simp only [emit, List.append_assoc]

theorem State.emit_setEnc (bs : List Byte) (e : Encoder) (s : State) : (s.setEnc e).emit bs = (s.emit bs).setEnc e :=
  rfl

theorem State.setEnc_setEnc (e e' : Encoder) (s : State) : (s.setEnc e).setEnc e' = s.setEnc e' := rfl

/-- All the bytes that BODY owes, and the checksum after them (R142). -/
theorem execAll_encByte {s : State} (b : Byte) (bs : List Byte) (hp : s.enc.phase = .body)
    (hr : s.enc.rem.toNat = bs.length + 1) :
    execAll ((b :: bs).map .encByte) s =
      .next ((s.emit (escAll s.params (b :: bs ++ [accumulate s.enc.acc (foldXor (b :: bs))]))).setEnc
        ⟨.done, s.enc.len, 0, accumulate s.enc.acc (foldXor (b :: bs))⟩) := by
  induction bs generalizing b s with
  | nil =>
    have hlast : s.enc.rem = 1 := BitVec.eq_of_toNat_eq hr
    rw [foldXor_cons, foldXor_nil, accumulate_zero]
    simp [exec_encByte_of_last hp hlast, State.escEmit, State.emit_emit]
  | cons c bs ih =>
    rw [List.length_cons] at hr
    have hcount : (s.enc.rem - 1).toNat = bs.length + 1 := by bv_omega
    rw [List.map_cons, execAll_cons, exec_encByte_of_owed hp (by omega), andThen_next, ih c rfl hcount, foldXor_cons b]
    simp [State.escEmit, State.emit_setEnc, State.emit_emit, State.setEnc_setEnc, accumulate_assoc]

/-- The whole frame: marker, length, buffer and checksum, as `Encode` gives them (R130, R140). -/
theorem execAll_encodeCommands {s : State} {buf : List Byte} (hp : s.enc.phase ≠ .body)
    (hbuf : buf.length ≤ Config.bufMax) :
    execAll (encodeCommands buf) s =
      .next ((s.emit (s.params.markerHi :: s.params.markerLo :: escAll s.params (frameBody buf))).setEnc
        ⟨.done, frameLen buf, 0, foldXor buf⟩) := by
  rw [encodeCommands, execAll_cons]
  cases buf with
  | nil =>
    have hbody : escAll s.params (frameBody []) = esc s.params 0x00 ++ esc s.params 0x01 ++ esc s.params 0x00 := by
      rw [show frameBody [] = [0x00, 0x01, 0x00] from rfl]
      simp
    rw [show BitVec.ofNat 16 ([] : List Byte).length = 0 from rfl, exec_encStart_zero hp, hbody]
    simp only [State.escEmit, State.emit_params, State.emit_emit]
    rfl
  | cons b bs =>
    simp only [Config.bufMax, List.length_cons] at hbuf
    have hn : (BitVec.ofNat 16 (b :: bs).length).toNat = bs.length + 1 := by
      rw [List.length_cons, BitVec.toNat_ofNat, Nat.mod_eq_of_lt (by omega)]
    have hlen : BitVec.ofNat 16 (b :: bs).length + 1 = frameLen (b :: bs) := (BitVec.ofNat_add _ _).symm
    have hsum : accumulate 0x00 (foldXor (b :: bs)) = foldXor (b :: bs) := (foldl_accumulate 0x00 (b :: bs)).symm
    rw [exec_encStart_of_nonempty hp (by bv_omega) (by bv_omega), andThen_next, execAll_encByte b bs rfl hn]
    simp only [State.setEnc_enc, hlen, hsum]
    simp [State.escEmit, State.emit_setEnc, State.emit_emit, State.setEnc_setEnc, frameBody]

/-- Settles O32: the frame's own commands emit its encoding (`execAll_encodeCommands`), and the encoder does not see the
commands among them (`State.SameEncoder`). -/
theorem encoderAgreesWithLevelOneEncode : Obligations.EncoderAgreesWithLevelOneEncode := by
  unfold Obligations.EncoderAgreesWithLevelOneEncode
  intro s buf is hs hp hbuf ⟨hown, hreset⟩
  have hframe := execAll_encodeCommands hp hbuf
  rw [← hown] at hframe
  obtain ⟨t, ht, hsame⟩ := execAll_of_filter State.SameEncoder.exec_own State.SameEncoder.exec_other hreset hs
    ⟨rfl, rfl, rfl⟩ hframe
  exact ⟨t, _, ht, encodeFrame_eq_some_iff.mpr ⟨hbuf, rfl⟩, hsame.tx, hsame.enc⟩

end Sys2Proof.Machine
end

section
/-! PROOF. The loop-back (spec/41_encoder.md R140, spec/42_decoder.md R163, R170): the decoder takes the escape of a
logical byte as that byte, so a frame the encoder emitted is decoded to its buffer. -/

namespace Sys2Proof.Machine

/-- Commands keep the invariants, so each part of a frame may be fed after the other. -/
theorem State.Inv.execAll_inv {s t : State} (hs : s.Inv) {is : List Instr} (h : execAll is s = .next t) : t.Inv := by
  obtain ⟨t', ht', hinv⟩ := hs.execAll_next is
  cases ht'.symm.trans h
  exact hinv

/-! ### One escaped byte -/

/-- The data effect of a logical byte, before its `Settle` (R172, R175). -/
def Decoder.data (x : Byte) (d : Decoder) : Decoder :=
  match d.phase with
  | .lenHi => { d with len := joinBytes x (loByte d.len) }
  | .lenLo => { d with len := joinBytes (hiByte d.len) x }
  | .body => d.bodyData x
  | .idle | .mark0 | .mark1 | .done | .error => d

/-- The phases that take logical bytes (R172). -/
def DecPhase.Unescapes (ph : DecPhase) : Prop := ph = .lenHi ∨ ph = .lenLo ∨ ph = .body

theorem DecPhase.Unescapes.active {ph : DecPhase} (h : ph.Unescapes) : ph.active = true := by
  rcases h with rfl | rfl | rfl <;> rfl

@[simp] theorem Decoder.bodyData_phase (x : Byte) (d : Decoder) : (d.bodyData x).phase = d.phase := by
  unfold bodyData
  split <;> rfl

@[simp] theorem Decoder.bodyData_esc (x : Byte) (d : Decoder) : (d.bodyData x).esc = d.esc := by
  unfold bodyData
  split <;> rfl

@[simp] theorem Decoder.data_phase (x : Byte) (d : Decoder) : (d.data x).phase = d.phase := by
  unfold data
  split <;> simp [*]

@[simp] theorem Decoder.data_esc (x : Byte) (d : Decoder) : (d.data x).esc = d.esc := by
  unfold data
  split <;> simp

theorem Decoder.wireByte_eq_logical_data {d : Decoder} (hp : d.phase.Unescapes) (p : Params) (x : Byte) :
    d.wireByte p x = (d.data x).logical p x := by
  rcases hp with hp | hp | hp <;> simp only [wireByte, data, hp]

theorem exec_decByte_of_esc {s : State} (ha : s.dec.phase.active = true) (he : s.dec.esc = true) (w : Byte) :
    exec (.decByte w) s = .next (s.setDec (s.dec.filler w)) := by
  simp only [exec, execDecByte, ha, Decoder.accept, he, ↓reduceIte]

theorem State.Inv.exec_decByte_of_no_esc {s : State} (hs : s.Inv) (ha : s.dec.phase.active = true)
    (he : s.dec.esc = false) (w : Byte) :
    exec (.decByte w) s = .next (s.setDec (s.dec.wireByte s.params w)) := by
  have hok := Decoder.accept_ok s.params w fun _ => Decoder.storeIndex_lt hs.dec
  simp only [exec, execDecByte, ha, hok, he, ↓reduceIte, Bool.false_eq_true]

/-- With its filler, if it needs one, a logical byte has its data effect and settles (R175, R176). -/
theorem State.Inv.execAll_esc {s : State} (hs : s.Inv) (hp : s.dec.phase.Unescapes) (he : s.dec.esc = false)
    (x : Byte) :
    execAll ((esc s.params x).map .decByte) s = .next (s.setDec (s.dec.data x).settle) := by
  have hfirst := hs.exec_decByte_of_no_esc hp.active he x
  rw [Decoder.wireByte_eq_logical_data hp] at hfirst
  rcases (s.dec.data x).logical_cases s.params x with ⟨hx, hl⟩ | ⟨hx, hl⟩ <;> rw [hl] at hfirst
  · have hactive : (s.dec.data x).phase.active = true := by rw [Decoder.data_phase, hp.active]
    have hdata : { s.dec.data x with esc := false } = s.dec.data x := by rw [← he, ← Decoder.data_esc x]
    have hfiller := exec_decByte_of_esc (s := s.setDec { s.dec.data x with esc := true }) hactive rfl Config.escFill
    rw [Decoder.filler, if_neg (not_not_intro rfl), State.setDec_dec] at hfiller
    rw [esc, if_pos hx, List.map_cons, execAll_cons, hfirst, andThen_next, List.map_cons, execAll_cons, hfiller, hdata]
    rfl
  · rw [esc, if_neg hx, List.map_cons, execAll_cons, hfirst]
    rfl

/-! ### The header -/

/-- An armed decoder given the marker awaits the length (R171, R174). -/
theorem execAll_decStart_marker (s : State) :
    execAll (decodeCommands [s.params.markerHi, s.params.markerLo]) s =
      .next (s.setDec ⟨.lenHi, false, none, s.params.markerHi, 0, 0, 0, 0, s.dec.buf⟩) := by
  simp [decodeCommands, exec, execDecStart, execDecByte, Decoder.accept, Decoder.storeIndex, Decoder.wireByte,
    DecPhase.active, State.setDec, Decoder.arm]

/-- A length field, high byte first, and what it starts when it is not zero (R172, R177). -/
theorem State.Inv.execAll_length {s : State} (hs : s.Inv) (hp : s.dec.phase = .lenHi) (he : s.dec.esc = false)
    {v : Half} (hv : v ≠ 0) :
    execAll ((escAll s.params [hiByte v, loByte v]).map .decByte) s =
      .next (s.setDec { s.dec with len := v, rem := v, acc := 0, outlen := 0, phase := .body }) := by
  have hhi : (s.dec.data (hiByte v)).settle =
      { s.dec with len := joinBytes (hiByte v) (loByte s.dec.len), phase := .lenLo } := by
    simp only [Decoder.data, hp, Decoder.settle]
  have hfirst := hs.execAll_esc (.inl hp) he (hiByte v)
  rw [hhi] at hfirst
  have hsecond := (hs.execAll_inv hfirst).execAll_esc (.inr (.inl rfl)) he (loByte v)
  rw [escAll_cons, List.map_append, execAll_append, hfirst, andThen_next, escAll_cons, escAll_nil, List.append_nil]
  refine hsecond.trans ?_
  simp only [State.setDec, Decoder.data, hiByte_joinBytes, joinBytes_hiByte_loByte, Decoder.settle, if_neg hv]

/-- Arming, marker and length together open the body, whatever the decoder held before. -/
theorem State.Inv.execAll_header {s : State} (hs : s.Inv) {v : Half} (hv : v ≠ 0) :
    execAll (decodeCommands ([s.params.markerHi, s.params.markerLo] ++ escAll s.params [hiByte v, loByte v])) s =
      .next (s.setDec ⟨.body, false, none, s.params.markerHi, v, v, 0, 0, s.dec.buf⟩) := by
  have hmarker := execAll_decStart_marker s
  have hlength := (hs.execAll_inv hmarker).execAll_length rfl rfl hv
  rw [decodeCommands, List.map_append, ← List.cons_append, ← decodeCommands, execAll_append, hmarker, andThen_next]
  exact hlength

/-! ### The body -/

/-- A buffer byte is stored at the end of the result (R175). -/
theorem Decoder.settle_data_of_buffer_byte {d : Decoder} (hp : d.phase = .body) (he : d.esc = false)
    (hr : 2 ≤ d.rem.toNat) (x : Byte) :
    (d.data x).settle = { d with
      acc := accumulate d.acc x, buf := d.buf.write d.outlen.toNat x, outlen := d.outlen + 1, rem := d.rem - 1 } := by
  have hi : d.storeIndex = some d.outlen.toNat := if_pos ⟨hp, he, hr⟩
  have hrem : d.rem - 1 ≠ 0 := by bv_omega
  simp only [data, hp, bodyData, hi, settle, if_neg hrem]

/-- The checksum byte is not stored, and ends the frame (R175, R177). -/
theorem Decoder.settle_data_of_checksum {d : Decoder} (hp : d.phase = .body) (hr : d.rem = 1) {x : Byte}
    (hx : accumulate d.acc x = 0) :
    (d.data x).settle = { d with acc := 0, rem := 0, phase := .done } := by
  have hi : d.storeIndex = none := if_neg fun h => by simp [hr] at h
  simp only [data, hp, bodyData, hi, settle, hr, hx]
  rfl

theorem Decoder.result_store {d : Decoder} (hlt : d.outlen.toNat < Config.bufMax) (x : Byte) :
    Decoder.result { d with buf := d.buf.write d.outlen.toNat x, outlen := d.outlen + 1 } = d.result ++ [x] := by
  have hlen : (d.outlen + 1).toNat = d.outlen.toNat + 1 := by
    simp only [Config.bufMax] at hlt
    bv_omega
  have hold : ∀ i ∈ List.range d.outlen.toNat, (d.buf.write d.outlen.toNat x).read i = d.buf.read i := fun i hi => by
    rw [Memory.read_write, if_neg (List.mem_range.mp hi).ne']
  simp only [result, hlen, List.range_succ, List.map_append, List.map_congr_left hold, List.map_cons, List.map_nil,
    Memory.read_write, ↓reduceIte]

/-- While more bytes are owed than come, BODY collects them (R153, R175). -/
theorem State.Inv.execAll_escAll_body {s : State} (hs : s.Inv) (hp : s.dec.phase = .body) (he : s.dec.esc = false)
    {bs : List Byte} (hbs : bs.length < s.dec.rem.toNat) :
    ∃ d, execAll ((escAll s.params bs).map .decByte) s = .next (s.setDec d) ∧ d.phase = .body ∧ d.esc = false ∧
      d.rem.toNat + bs.length = s.dec.rem.toNat ∧ d.acc = accumulate s.dec.acc (foldXor bs) ∧
      d.result = s.dec.result ++ bs := by
  induction bs generalizing s with
  | nil => exact ⟨s.dec, rfl, hp, he, rfl, (accumulate_zero _).symm, (List.append_nil _).symm⟩
  | cons b bs ih =>
    rw [List.length_cons] at hbs
    have hr : 2 ≤ s.dec.rem.toNat := by omega
    have hfirst := hs.execAll_esc (.inr (.inr hp)) he b
    rw [Decoder.settle_data_of_buffer_byte hp he hr] at hfirst
    have hrem : (s.dec.rem - 1).toNat = s.dec.rem.toNat - 1 := by bv_omega
    obtain ⟨d, hd, hphase, hesc, hcount, hacc, hresult⟩ := ih (hs.execAll_inv hfirst) hp he (by
      rw [State.setDec_dec, hrem]
      omega)
    rw [State.setDec_dec] at hcount hacc hresult
    refine ⟨d, ?_, hphase, hesc, ?_, ?_, ?_⟩
    · rw [escAll_cons, List.map_append, execAll_append, hfirst, andThen_next]
      exact hd
    · have := hcount.trans hrem
      rw [List.length_cons]
      omega
    · rw [hacc, foldXor_cons, accumulate_assoc]
    · have hlt : s.dec.outlen.toNat < Config.bufMax := Decoder.storeIndex_lt hs.dec (if_pos ⟨hp, he, hr⟩)
      have hstore : d.result = s.dec.result ++ [b] ++ bs := by
        rw [← Decoder.result_store hlt b]
        exact hresult
      rw [hstore, List.append_assoc, List.singleton_append]

/-- A buffer and its checksum, as many bytes as are owed, end in DONE (R155, R175, R177). -/
theorem State.Inv.execAll_buffer_and_checksum {s : State} (hs : s.Inv) (hp : s.dec.phase = .body)
    (he : s.dec.esc = false) (ha : s.dec.acc = 0) {buf : List Byte} (hr : s.dec.rem.toNat = buf.length + 1) :
    ∃ d, execAll ((escAll s.params (buf ++ [foldXor buf])).map .decByte) s = .next (s.setDec d) ∧ d.phase = .done ∧
      d.result = s.dec.result ++ buf := by
  obtain ⟨d, hd, hphase, hesc, hcount, hacc, hresult⟩ := hs.execAll_escAll_body hp he (bs := buf) (by omega)
  have hrem : d.rem = 1 := by
    rw [hr, Nat.add_comm buf.length] at hcount
    exact BitVec.eq_of_toNat_eq (Nat.add_right_cancel hcount)
  have hsum : accumulate d.acc (foldXor buf) = 0 := by
    rw [hacc, accumulate_assoc, accumulate_self, accumulate_zero, ha]
  have hlast := (hs.execAll_inv hd).execAll_esc (.inr (.inr hphase)) hesc (foldXor buf)
  rw [State.setDec_dec, Decoder.settle_data_of_checksum hphase hrem hsum] at hlast
  refine ⟨{ d with acc := 0, rem := 0, phase := .done }, ?_, rfl, hresult⟩
  rw [escAll_append, List.map_append, execAll_append, hd, andThen_next, escAll_cons, escAll_nil, List.append_nil]
  exact hlast

/-! ### The frame -/

/-- An encoded frame, fed to the decoder from any state with the invariants, ends in DONE with its buffer (R163,
R170). -/
theorem State.Inv.execAll_decodeCommands_of_encodeFrame {s : State} (hs : s.Inv) {buf wire : List Byte}
    (hw : encodeFrame s.params buf = some wire) :
    ∃ d, execAll (decodeCommands wire) s = .next (s.setDec d) ∧ d.phase = .done ∧ d.result = buf := by
  obtain ⟨hbuf, rfl⟩ := encodeFrame_eq_some_iff.mp hw
  have hlen : (frameLen buf).toNat = buf.length + 1 := by
    simp only [Config.bufMax] at hbuf
    rw [frameLen, BitVec.toNat_ofNat, Nat.mod_eq_of_lt (by omega)]
  have hheader := hs.execAll_header (v := frameLen buf) (by bv_omega)
  obtain ⟨d, hd, hphase, hresult⟩ := (hs.execAll_inv hheader).execAll_buffer_and_checksum rfl rfl rfl hlen
  refine ⟨d, ?_, hphase, hresult⟩
  have hsplit : decodeCommands (s.params.markerHi :: s.params.markerLo :: escAll s.params (frameBody buf)) =
      decodeCommands ([s.params.markerHi, s.params.markerLo] ++
        escAll s.params [hiByte (frameLen buf), loByte (frameLen buf)]) ++
      (escAll s.params (buf ++ [foldXor buf])).map .decByte := by
    simp [decodeCommands, frameBody]
  rw [hsplit, execAll_append, hheader]
  exact hd

/-- Settles O42: the encoder commands emit the buffer's encoding (`execAll_encodeCommands`), and the decoder takes that
for the buffer. -/
theorem loopbackReturnsTheBuffer : Obligations.LoopbackReturnsTheBuffer := by
  unfold Obligations.LoopbackReturnsTheBuffer
  intro s buf hs hp hbuf
  have henc := execAll_encodeCommands hp hbuf
  have hinv := hs.execAll_inv henc
  obtain ⟨d, hdec, hphase, hresult⟩ := hinv.execAll_decodeCommands_of_encodeFrame (buf := buf)
    (encodeFrame_eq_some_iff.mpr ⟨hbuf, rfl⟩)
  have hd : d.Inv := (hinv.execAll_inv hdec).dec
  exact ⟨_, _, _, henc, rfl, hdec, hphase, hd.err_eq_none (by simp [hphase]), hresult, rfl⟩

end Sys2Proof.Machine
end

section
/-! PROOF. `Decode` accepts exactly what `Encode` gives (spec/42_decoder.md R151, R156, R162 to R164): what each reader
has consumed when it answers a value. -/

namespace Sys2Proof.Machine

/-! ### `Decode` in three parts -/

/-- The end of `Decode`: the checksum test on the `len` bytes read, and the result (R155, R156). -/
def verifyData (len : Half) (data ws : List Byte) : Reading (List Byte) :=
  if foldXor data ≠ 0x00 then .failed .badChecksum ws else .got (data.take (len.toNat - 1)) ws

/-- `Decode` after the length field (R154 to R157). -/
def decodeBody (p : Params) (len : Half) (ws : List Byte) : Reading (List Byte) :=
  if len = 0 then .failed .zeroLength ws else (readMany p len.toNat ws).andThen (verifyData len)

/-- `Decode` after the marker (R152, R153). -/
def decodeLength (p : Params) (ws : List Byte) : Reading (List Byte) :=
  (readU p ws).andThen fun hi ws => (readU p ws).andThen fun lo ws => decodeBody p (joinBytes hi lo) ws

theorem decodeFrame_marker (p : Params) (ws : List Byte) :
    decodeFrame p (p.markerHi :: p.markerLo :: ws) = decodeLength p ws :=
  if_neg (by simp)

theorem decodeFrame_of_ne_marker {p : Params} {m0 m1 : Byte} (h : ¬(m0 = p.markerHi ∧ m1 = p.markerLo))
    (ws : List Byte) : decodeFrame p (m0 :: m1 :: ws) = .failed .badMarker ws :=
  if_pos (not_and_or.mp h)

@[simp] theorem decodeFrame_nil (p : Params) : decodeFrame p [] = .failed .timeout [] := rfl

@[simp] theorem decodeFrame_singleton (p : Params) (w : Byte) : decodeFrame p [w] = .failed .timeout [] := rfl

/-! ### What a reader that answers a value has consumed -/

theorem Reading.andThen_eq_got {α β : Type} {r : Reading α} {f : α → List Byte → Reading β} {b : β}
    {rest : List Byte} : r.andThen f = .got b rest ↔ ∃ a ws, r = .got a ws ∧ f a ws = .got b rest := by
  cases r <;> simp

/-- A read consumes the escape of the byte it returns (R117). -/
theorem readU_eq_got {p : Params} {ws rest : List Byte} {b : Byte} :
    readU p ws = .got b rest ↔ ws = esc p b ++ rest := by
  refine ⟨fun h => ?_, fun h => h ▸ readU_esc_append p b rest⟩
  rcases readU_cases p ws with ⟨-, hr⟩ | ⟨w, ws', rfl, hw, hr⟩ | ⟨-, hr⟩ | ⟨ws', rfl, hr⟩ | ⟨f, ws', -, -, hr⟩ <;>
    cases hr.symm.trans h
  · rw [esc, if_neg hw]
    rfl
  · rw [esc, if_pos rfl]
    rfl

/-- `n` reads consume the escape of the `n` bytes they return (R154). -/
theorem readMany_eq_got {p : Params} {n : Nat} {ws bs rest : List Byte} :
    readMany p n ws = .got bs rest ↔ bs.length = n ∧ ws = escAll p bs ++ rest := by
  refine ⟨fun h => ?_, fun ⟨hn, hws⟩ => hn ▸ hws ▸ readMany_escAll_append p bs rest⟩
  induction n generalizing ws bs with
  | zero =>
    cases h
    exact ⟨rfl, rfl⟩
  | succ n ih =>
    rw [readMany] at h
    obtain ⟨b, ws₁, hb, h⟩ := Reading.andThen_eq_got.mp h
    obtain ⟨bs', ws₂, hbs, h⟩ := Reading.andThen_eq_got.mp h
    cases h
    obtain ⟨rfl, rfl⟩ := ih hbs
    rw [readU_eq_got.mp hb, escAll_cons, List.append_assoc]
    exact ⟨rfl, rfl⟩

/-- The body that `Decode` accepts: the buffer and a checksum byte, as many bytes as the length says (R154 to R157). -/
theorem decodeBody_eq_got {p : Params} {len : Half} {ws buf rest : List Byte} :
    decodeBody p len ws = .got buf rest ↔ ∃ c, len.toNat = buf.length + 1 ∧ foldXor (buf ++ [c]) = 0x00 ∧
      ws = escAll p (buf ++ [c]) ++ rest := by
  by_cases hlen : len = 0
  · subst hlen
    simp [decodeBody]
  have hpos : len.toNat ≠ 0 := by simpa [BitVec.toNat_eq] using hlen
  simp only [decodeBody, if_neg hlen, Reading.andThen_eq_got, readMany_eq_got, verifyData]
  constructor
  · rintro ⟨data, ws', ⟨hdata, rfl⟩, hv⟩
    split at hv <;> cases hv
    next hsum =>
      obtain ⟨buf, c, rfl⟩ := (List.eq_nil_or_concat' data).resolve_left (List.ne_nil_of_length_pos (by omega))
      rw [List.length_append, List.length_singleton] at hdata
      rw [← hdata, Nat.add_sub_cancel, List.take_left]
      exact ⟨c, rfl, not_not.mp hsum, rfl⟩
  · rintro ⟨c, hcount, hsum, rfl⟩
    refine ⟨buf ++ [c], rest, ⟨by simp [hcount], rfl⟩, ?_⟩
    rw [if_neg (not_not_intro hsum), hcount, Nat.add_sub_cancel, List.take_left]

/-- Everything `Decode` has consumed when it returns a buffer (R150). -/
theorem decodeFrame_eq_got {p : Params} {ws buf rest : List Byte} :
    decodeFrame p ws = .got buf rest ↔ ∃ hi lo c, (joinBytes hi lo).toNat = buf.length + 1 ∧
      foldXor (buf ++ [c]) = 0x00 ∧ ws = p.markerHi :: p.markerLo :: escAll p ([hi, lo] ++ buf ++ [c]) ++ rest := by
  match ws with
  | [] | [_] => simp
  | m0 :: m1 :: ws =>
    by_cases hm : m0 = p.markerHi ∧ m1 = p.markerLo
    · obtain ⟨rfl, rfl⟩ := hm
      rw [decodeFrame_marker, decodeLength]
      simp only [Reading.andThen_eq_got, readU_eq_got, decodeBody_eq_got]
      constructor
      · rintro ⟨hi, _, rfl, lo, _, rfl, c, hcount, hsum, rfl⟩
        exact ⟨hi, lo, c, hcount, hsum, by simp⟩
      · rintro ⟨hi, lo, c, hcount, hsum, hws⟩
        exact ⟨hi, _, by simpa using hws, lo, _, rfl, c, hcount, hsum, rfl⟩
    · rw [decodeFrame_of_ne_marker hm]
      refine ⟨nofun, fun ⟨hi, lo, c, _, _, hws⟩ => ?_⟩
      injection hws with h0 hws
      injection hws with h1
      exact absurd ⟨h0, h1⟩ hm

/-- Settles O11: the reads consume the escape of length, buffer and checksum, and the checksum test passed
(`decodeFrame_eq_got`). -/
theorem decodedFrameHasZeroXor : Obligations.DecodedFrameHasZeroXor := by
  unfold Obligations.DecodedFrameHasZeroXor
  intro p ws buf rest h
  obtain ⟨hi, lo, c, hcount, hsum, rfl⟩ := decodeFrame_eq_got.mp h
  exact ⟨hi, lo, c, _, hsum, hcount, rfl, rfl⟩

/-! ### `Decode` and `Encode` -/

theorem foldXor_append_singleton (s : List Byte) (b : Byte) : foldXor (s ++ [b]) = accumulate (foldXor s) b := by
  rw [foldXor_append, foldXor_cons, foldXor_nil, accumulate_zero]

/-- The checksum byte that passes is the fold of the buffer (R113). -/
theorem foldXor_append_singleton_eq_zero {buf : List Byte} {c : Byte} :
    foldXor (buf ++ [c]) = 0x00 ↔ c = foldXor buf := by
  rw [foldXor_append_singleton]
  exact BitVec.xor_eq_zero_iff.trans eq_comm

/-- The length bytes that count buffer and checksum are those of `Encode`, and the buffer is then in its domain. -/
theorem joinBytes_toNat_eq {hi lo : Byte} {buf : List Byte} : (joinBytes hi lo).toNat = buf.length + 1 ↔
    buf.length ≤ Config.bufMax ∧ hi = hiByte (frameLen buf) ∧ lo = loByte (frameLen buf) := by
  have hbuf : (frameLen buf).toNat = (buf.length + 1) % 2 ^ 16 := BitVec.toNat_ofNat _ _
  simp only [Config.bufMax]
  constructor
  · intro h
    have hlt := (joinBytes hi lo).isLt
    have heq : frameLen buf = joinBytes hi lo := BitVec.eq_of_toNat_eq (by omega)
    rw [heq, hiByte_joinBytes, loByte_joinBytes]
    exact ⟨by omega, rfl, rfl⟩
  · rintro ⟨hle, rfl, rfl⟩
    rw [joinBytes_hiByte_loByte]
    omega

/-- `Decode` returns a buffer exactly on the buffer's encoding and whatever follows it (R163, R164). -/
theorem decodeFrame_eq_got_iff_encodeFrame {p : Params} {ws buf rest : List Byte} :
    decodeFrame p ws = .got buf rest ↔ ∃ wire, encodeFrame p buf = some wire ∧ ws = wire ++ rest := by
  simp only [decodeFrame_eq_got, joinBytes_toNat_eq, foldXor_append_singleton_eq_zero, encodeFrame_eq_some_iff,
    frameBody]
  constructor
  · rintro ⟨_, _, _, ⟨hle, rfl, rfl⟩, rfl, rfl⟩
    exact ⟨_, ⟨hle, rfl⟩, rfl⟩
  · rintro ⟨_, ⟨hle, rfl⟩, rfl⟩
    exact ⟨_, _, _, ⟨hle, rfl, rfl⟩, rfl, rfl⟩

/-- Settles O8. -/
theorem decodeInvertsEncode : Obligations.DecodeInvertsEncode := by
  unfold Obligations.DecodeInvertsEncode
  exact fun p buf wire rest h => decodeFrame_eq_got_iff_encodeFrame.mpr ⟨wire, h, rfl⟩

/-- Settles O9: both directions at once, and `Encode` has one value. -/
theorem decodeAcceptsExactlyEncodedFrames : Obligations.DecodeAcceptsExactlyEncodedFrames := by
  unfold Obligations.DecodeAcceptsExactlyEncodedFrames
  refine ⟨fun p ws buf rest => decodeFrame_eq_got_iff_encodeFrame, fun p ws₁ ws₂ buf h₁ h₂ => ?_⟩
  obtain ⟨wire₁, hw₁, rfl⟩ := decodeFrame_eq_got_iff_encodeFrame.mp h₁
  obtain ⟨wire₂, hw₂, rfl⟩ := decodeFrame_eq_got_iff_encodeFrame.mp h₂
  rw [Option.some.inj (hw₁.symm.trans hw₂)]

/-! ### Errors that readers do not raise -/

theorem Reading.andThen_ne_failed {α β : Type} {r : Reading α} {f : α → List Byte → Reading β} {e : DecodeError}
    (hr : ∀ rest, r ≠ .failed e rest) (hf : ∀ a ws rest, f a ws ≠ .failed e rest) (rest : List Byte) :
    r.andThen f ≠ .failed e rest := by
  cases r with
  | got a ws => exact hf a ws rest
  | failed e' ws => simpa using hr rest

theorem readU_ne_badMarker (p : Params) (ws rest : List Byte) : readU p ws ≠ .failed .badMarker rest := by
  rcases readU_cases p ws with ⟨-, h⟩ | ⟨_, _, -, -, h⟩ | ⟨-, h⟩ | ⟨_, -, h⟩ | ⟨_, _, -, -, h⟩ <;> rw [h] <;> nofun

theorem readMany_ne_badMarker (p : Params) (n : Nat) (ws rest : List Byte) :
    readMany p n ws ≠ .failed .badMarker rest := by
  induction n generalizing ws rest with
  | zero => nofun
  | succ n ih =>
    exact Reading.andThen_ne_failed (readU_ne_badMarker p ws)
      (fun b ws => Reading.andThen_ne_failed (ih ws) (fun _ _ _ => by simp)) rest

theorem verifyData_ne_badMarker (len : Half) (data ws rest : List Byte) :
    verifyData len data ws ≠ .failed .badMarker rest := by
  unfold verifyData
  split <;> nofun

theorem decodeBody_ne_badMarker (p : Params) (len : Half) (ws rest : List Byte) :
    decodeBody p len ws ≠ .failed .badMarker rest := by
  unfold decodeBody
  split
  · nofun
  · exact Reading.andThen_ne_failed (readMany_ne_badMarker p _ ws) (verifyData_ne_badMarker len) rest

/-- Settles O7: after the marker, `Decode` only reads through `ReadU`, and no later check is of the marker. -/
theorem decodeComparesMarkerLiterally : Obligations.DecodeComparesMarkerLiterally := by
  unfold Obligations.DecodeComparesMarkerLiterally
  refine fun p m0 m1 ws => ⟨fun hm => decodeFrame_of_ne_marker hm ws, fun rest => ?_, decodeFrame_singleton p m0,
    decodeFrame_nil p⟩
  rw [decodeFrame_marker]
  exact Reading.andThen_ne_failed (readU_ne_badMarker p ws)
    (fun hi ws => Reading.andThen_ne_failed (readU_ne_badMarker p ws)
      (fun lo ws => decodeBody_ne_badMarker p (joinBytes hi lo) ws)) rest

end Sys2Proof.Machine
end

section
/-! PROOF. How far `Decode` reads (spec/42_decoder.md R158): a reader waits for more bytes until the one that settles
its outcome, and looks at none after it. -/

namespace Sys2Proof.Machine

/-! ### Readers that stop at the byte that settles their outcome -/

/-- The ways a reading can end, other than for want of bytes. -/
def Reading.Final {α : Type} (r : List Byte → Reading α) : Prop :=
  (∃ a, r = .got a) ∨ ∃ e, e ≠ DecodeError.timeout ∧ r = .failed e

/-- The outcome and the rest of a reading that has ended can be told apart. -/
theorem Reading.Final.inj {α : Type} {r r' : List Byte → Reading α} (hr : Final r) (hr' : Final r')
    {rest rest' : List Byte} (h : r rest = r' rest') : r = r' ∧ rest = rest' := by
  rcases hr with ⟨a, rfl⟩ | ⟨e, -, rfl⟩ <;> rcases hr' with ⟨a', rfl⟩ | ⟨e', -, rfl⟩ <;> cases h <;> exact ⟨rfl, rfl⟩

theorem Reading.Final.ne_timeout {α : Type} {r : List Byte → Reading α} (hr : Final r) (rest rest' : List Byte) :
    r rest ≠ .failed .timeout rest' := by
  rcases hr with ⟨a, rfl⟩ | ⟨e, he, rfl⟩
  · nofun
  · exact fun h => he (Reading.failed.inj h).1

/-- After exactly the bytes `used` the reader `f` ends with `r`, whatever follows them. -/
structure EndsAt {α : Type} (f : List Byte → Reading α) (used : List Byte) (r : List Byte → Reading α) : Prop where
  settled : ∀ rest, f (used ++ rest) = r rest
  waits : ∀ k < used.length, f (used.take k) = .failed .timeout []

/-- On every input a reader either wants more bytes or ends after some of them. -/
def Incremental {α : Type} (f : List Byte → Reading α) : Prop :=
  ∀ ws, f ws = .failed .timeout [] ∨ ∃ used rest r, ws = used ++ rest ∧ Reading.Final r ∧ EndsAt f used r

theorem incremental_of_final {α : Type} {r : List Byte → Reading α} (hr : Reading.Final r) : Incremental r :=
  fun ws => .inr ⟨[], ws, r, rfl, hr, fun _ => rfl, nofun⟩

theorem incremental_got {α : Type} (a : α) : Incremental (Reading.got a) := incremental_of_final (.inl ⟨a, rfl⟩)

theorem incremental_failed {α : Type} (e : DecodeError) (he : e ≠ .timeout) :
    Incremental (Reading.failed e : List Byte → Reading α) := incremental_of_final (.inr ⟨e, he, rfl⟩)

theorem incremental_nextByte : Incremental nextByte
  | [] => .inl rfl
  | w :: ws => .inr ⟨[w], ws, .got w, rfl, .inl ⟨w, rfl⟩, fun _ => rfl, fun k hk => by
      rw [Nat.lt_one_iff.mp hk]
      rfl⟩

/-- One reader after another: where the first ends, the second goes on, and the first waits for no byte of the
second. -/
theorem Incremental.andThen {α β : Type} {f : List Byte → Reading α} {g : α → List Byte → Reading β}
    (hf : Incremental f) (hg : ∀ a, Incremental (g a)) : Incremental fun ws => (f ws).andThen g := by
  intro ws
  rcases hf ws with h | ⟨used, ws, r, rfl, ⟨a, rfl⟩ | ⟨e, he, rfl⟩, hend⟩
  · left
    simp only [h, Reading.andThen_failed]
  · have hnext : ∀ ws', (f (used ++ ws')).andThen g = g a ws' := fun ws' => by
      rw [hend.settled, Reading.andThen_got]
    rcases hg a ws with h | ⟨used', rest, r, rfl, hr, hend'⟩
    · exact .inl ((hnext ws).trans h)
    · refine .inr ⟨used ++ used', rest, r, (List.append_assoc _ _ _).symm, hr, fun rest' => ?_, fun k hk => ?_⟩
      · rw [List.append_assoc]
        exact (hnext _).trans (hend'.settled rest')
      · show (f _).andThen g = _
        rcases Nat.lt_or_ge k used.length with hlt | hge
        · rw [List.take_append_of_le_length hlt.le, hend.waits k hlt, Reading.andThen_failed]
        · rw [List.length_append] at hk
          rw [List.take_append, List.take_of_length_le hge, hnext, hend'.waits _ (by omega)]
  · refine .inr ⟨used, ws, .failed e, rfl, .inr ⟨e, he, rfl⟩, fun rest => ?_, fun k hk => ?_⟩
    · rw [hend.settled, Reading.andThen_failed]
    · rw [hend.waits k hk, Reading.andThen_failed]

theorem Incremental.ite {α : Type} {c : Prop} [Decidable c] {f g : List Byte → Reading α} (hf : Incremental f)
    (hg : Incremental g) : Incremental fun ws => if c then f ws else g ws := by
  split <;> assumption

/-! ### `Decode` is such a reader -/

theorem incremental_readU (p : Params) : Incremental (readU p) :=
  incremental_nextByte.andThen fun w =>
    (incremental_nextByte.andThen fun _ => (incremental_failed .badEscape nofun).ite (incremental_got w)).ite
      (incremental_got w)

theorem incremental_readMany (p : Params) : ∀ n, Incremental (readMany p n)
  | 0 => incremental_got []
  | n + 1 => (incremental_readU p).andThen fun b =>
      (incremental_readMany p n).andThen fun bs => incremental_got (b :: bs)

theorem incremental_decodeBody (p : Params) (len : Half) : Incremental (decodeBody p len) :=
  (incremental_failed .zeroLength nofun).ite <| (incremental_readMany p len.toNat).andThen fun data =>
    (incremental_failed .badChecksum nofun).ite (incremental_got (data.take (len.toNat - 1)))

theorem incremental_decodeFrame (p : Params) : Incremental (decodeFrame p) :=
  incremental_nextByte.andThen fun _ => incremental_nextByte.andThen fun _ =>
    (incremental_failed .badMarker nofun).ite <| (incremental_readU p).andThen fun hi =>
      (incremental_readU p).andThen fun lo => incremental_decodeBody p (joinBytes hi lo)

/-- Where an outcome of `Decode` is settled. -/
theorem decodeFrame_endsAt {p : Params} {ws rest : List Byte} {r : List Byte → Reading (List Byte)}
    (hr : Reading.Final r) (h : decodeFrame p ws = r rest) :
    ∃ used, ws = used ++ rest ∧ EndsAt (decodeFrame p) used r := by
  rcases incremental_decodeFrame p ws with ht | ⟨used, rest', r', rfl, hr', hend⟩
  · exact absurd (h.symm.trans ht) (hr.ne_timeout rest [])
  · obtain ⟨rfl, rfl⟩ := hr.inj hr' (h.symm.trans (hend.settled rest'))
    exact ⟨used, rfl, hend⟩

/-- Where `Decode` wants more bytes, it does so on every shorter input. -/
theorem decodeFrame_take_of_timeout {p : Params} {ws rest : List Byte} (h : decodeFrame p ws = .failed .timeout rest)
    (j : Nat) : decodeFrame p (ws.take j) = .failed .timeout [] := by
  refine (incremental_decodeFrame p (ws.take j)).resolve_right ?_
  rintro ⟨used, rest', r, hused, hr, hend⟩
  rw [← List.take_append_drop j ws, hused, List.append_assoc, hend.settled] at h
  exact hr.ne_timeout _ _ h

/-- Settles O10: `Decode` is incremental, and what it has consumed for a buffer is the buffer's encoding, whose length
is known (O5). -/
theorem decodeConsumesNoByteBeyondItsOutcome : Obligations.DecodeConsumesNoByteBeyondItsOutcome := by
  unfold Obligations.DecodeConsumesNoByteBeyondItsOutcome
  intro p ws r rest hkind h
  have hr : Reading.Final r := by
    rcases hkind with rfl | rfl | rfl | rfl | hgot
    · exact .inr ⟨.badMarker, nofun, rfl⟩
    · exact .inr ⟨.badEscape, nofun, rfl⟩
    · exact .inr ⟨.badChecksum, nofun, rfl⟩
    · exact .inr ⟨.zeroLength, nofun, rfl⟩
    · exact .inl hgot
  obtain ⟨used, rfl, hend⟩ := decodeFrame_endsAt hr h
  refine ⟨used, rfl, hend.settled, hend.waits, fun buf hbuf => ?_⟩
  obtain ⟨wire, hwire, hused⟩ := decodeFrame_eq_got_iff_encodeFrame.mp (h.trans hbuf)
  cases List.append_cancel_right hused
  obtain ⟨wire', hwire', hlen⟩ := (encodeDomainAndLength p buf).2 (encodeFrame_eq_some_iff.mp hwire).1
  cases hwire.symm.trans hwire'
  exact hlen

end Sys2Proof.Machine
end

section
/-! PROOF. The decoder commands one by one (spec/42_decoder.md R171 to R178), and that BODY lasts for the whole length
(R153, R154). -/

namespace Sys2Proof.Machine

/-! ### What a command does, guard by guard -/

theorem DecPhase.active_iff (ph : DecPhase) :
    ph.active = true ↔ ph = .mark0 ∨ ph = .mark1 ∨ ph = .lenHi ∨ ph = .lenLo ∨ ph = .body := by
  cases ph <;> simp [active]

theorem DecPhase.not_active_iff (ph : DecPhase) : ph.active = false ↔ ph = .idle ∨ ph = .done ∨ ph = .error := by
  cases ph <;> simp [active]

theorem exec_decByte_of_not_active {s : State} (ha : s.dec.phase.active = false) (w : Byte) :
    exec (.decByte w) s = .next s.raiseSeqerr := by
  simp only [exec, execDecByte, ha, Bool.false_eq_true, ↓reduceIte]

theorem exec_decAbort_of_not_active {s : State} (ha : s.dec.phase.active = false) :
    exec .decAbort s = .next s.raiseSeqerr := by
  simp only [exec, execDecAbort, ha, Bool.false_eq_true, ↓reduceIte]

theorem exec_decAbort_of_active {s : State} (ha : s.dec.phase.active = true) :
    exec .decAbort s = .next (s.setDec (s.dec.fail .timeout)) := by
  simp only [exec, execDecAbort, ha, ↓reduceIte]

/-- Outside BODY there is no store, so none past the end of `DEC_BUF`. -/
theorem Decoder.storeIndex_lt_of_ne_body {d : Decoder} (hb : d.phase ≠ .body) (i : Nat) (h : d.storeIndex = some i) :
    i < Config.bufMax :=
  nomatch (storeIndex_of_phase hb).symm.trans h

/-- With no filler pending, and its store, if any, within `DEC_BUF`, a wire byte is taken by its phase (R172). -/
theorem exec_decByte_of_wireByte {s : State} (ha : s.dec.phase.active = true) (he : s.dec.esc = false)
    (hi : ∀ i, s.dec.storeIndex = some i → i < Config.bufMax) (w : Byte) :
    exec (.decByte w) s = .next (s.setDec (s.dec.wireByte s.params w)) := by
  simp only [exec, execDecByte, ha, Decoder.accept_ok s.params w hi, he, Bool.false_eq_true, ↓reduceIte]

/-! ### A logical byte, its filler and its `Settle` -/

namespace Decoder

variable {d : Decoder}

theorem filler_escFill (d : Decoder) : d.filler 0x00 = settle { d with esc := false } := if_neg (not_not_intro rfl)

theorem filler_of_ne {w : Byte} (hw : w ≠ 0x00) (d : Decoder) : d.filler w = d.fail .badEscape := if_pos hw

/-- With no filler pending, `Fail` has none to forget (R213). -/
theorem fail_of_no_esc (he : d.esc = false) (e : DecodeError) :
    d.fail e = { d with phase := .error, err := some e, outlen := 0 } := by
  rw [fail, ← he]

theorem settle_of_lenHi (hp : d.phase = .lenHi) : d.settle = { d with phase := .lenLo } := by
  simp only [settle, hp]

theorem settle_of_zero_length (hp : d.phase = .lenLo) (hl : d.len = 0) : d.settle = d.fail .zeroLength := by
  simp only [settle, hp, if_pos hl]

theorem settle_of_length (hp : d.phase = .lenLo) (hl : d.len ≠ 0) :
    d.settle = { d with rem := d.len, acc := 0, outlen := 0, phase := .body } := by
  simp only [settle, hp, if_neg hl]

theorem settle_of_owed (hp : d.phase = .body) (hr : d.rem ≠ 0) : d.settle = d := by
  simp only [settle, hp, if_neg hr]

theorem settle_of_checksum (hp : d.phase = .body) (hr : d.rem = 0) (ha : d.acc = 0) :
    d.settle = { d with phase := .done } := by
  simp only [settle, hp, if_pos hr, if_pos ha]

theorem settle_of_bad_checksum (hp : d.phase = .body) (hr : d.rem = 0) (ha : d.acc ≠ 0) :
    d.settle = d.fail .badChecksum := by
  simp only [settle, hp, if_pos hr, if_neg ha]

theorem data_of_lenHi (hp : d.phase = .lenHi) (x : Byte) : d.data x = { d with len := joinBytes x (loByte d.len) } := by
  simp only [data, hp]

theorem data_of_lenLo (hp : d.phase = .lenLo) (x : Byte) : d.data x = { d with len := joinBytes (hiByte d.len) x } := by
  simp only [data, hp]

theorem data_of_buffer_byte (hp : d.phase = .body) (he : d.esc = false) (hr : 2 ≤ d.rem.toNat) (x : Byte) :
    d.data x = { d with
      acc := accumulate d.acc x, buf := d.buf.write d.outlen.toNat x, outlen := d.outlen + 1, rem := d.rem - 1 } := by
  have hi : d.storeIndex = some d.outlen.toNat := if_pos ⟨hp, he, hr⟩
  simp only [data, hp, bodyData, hi]

theorem data_of_checksum (hp : d.phase = .body) (hr : d.rem = 1) (x : Byte) :
    d.data x = { d with acc := accumulate d.acc x, rem := 0 } := by
  have hi : d.storeIndex = none := if_neg fun h => by simp [hr] at h
  simp only [data, hp, bodyData, hi, hr]
  rfl

theorem settle_data_of_lenHi (hp : d.phase = .lenHi) (x : Byte) :
    (d.data x).settle = { d with len := joinBytes x (loByte d.len), phase := .lenLo } := by
  rw [data_of_lenHi hp]
  exact settle_of_lenHi hp

theorem settle_data_of_zero_length (hp : d.phase = .lenLo) {x : Byte} (hl : joinBytes (hiByte d.len) x = 0) :
    (d.data x).settle = fail .zeroLength { d with len := 0 } := by
  rw [data_of_lenLo hp, hl]
  exact settle_of_zero_length hp rfl

theorem settle_data_of_length (hp : d.phase = .lenLo) {x : Byte} (hl : joinBytes (hiByte d.len) x ≠ 0) :
    (d.data x).settle = { d with
      len := joinBytes (hiByte d.len) x, rem := joinBytes (hiByte d.len) x, acc := 0, outlen := 0,
      phase := .body } := by
  rw [data_of_lenLo hp]
  exact settle_of_length hp hl

theorem settle_data_of_bad_checksum (hp : d.phase = .body) (hr : d.rem = 1) {x : Byte} (hx : accumulate d.acc x ≠ 0) :
    (d.data x).settle = fail .badChecksum { d with acc := accumulate d.acc x, rem := 0 } := by
  rw [data_of_checksum hp hr]
  exact settle_of_bad_checksum hp rfl hx

end Decoder

section

variable {s : State} {w : Byte} (hp : s.dec.phase.Unescapes)
include hp

/-- A filler of 0x00 settles and leaves the data alone (R176). -/
theorem exec_decByte_escFill (he : s.dec.esc = true) {d : Decoder}
    (h : Decoder.settle { s.dec with esc := false } = d) :
    exec (.decByte 0x00) s = .next (s.setDec d) := by
  rw [exec_decByte_of_esc hp.active he, Decoder.filler_escFill, h]

variable (he : s.dec.esc = false) (hi : ∀ i, s.dec.storeIndex = some i → i < Config.bufMax)
include he hi

/-- A `MARKER_HI` has its data effect and waits for its filler (R175). -/
theorem exec_decByte_markerHi (hw : w = s.params.markerHi) {d : Decoder} (h : s.dec.data w = d) :
    exec (.decByte w) s = .next (s.setDec { d with esc := true }) := by
  rw [exec_decByte_of_wireByte hp.active he hi, Decoder.wireByte_eq_logical_data hp, Decoder.logical, if_pos hw, h]

/-- Any other logical byte settles at once (R175). -/
theorem exec_decByte_of_ne_markerHi (hw : w ≠ s.params.markerHi) {d : Decoder} (h : (s.dec.data w).settle = d) :
    exec (.decByte w) s = .next (s.setDec d) := by
  rw [exec_decByte_of_wireByte hp.active he hi, Decoder.wireByte_eq_logical_data hp, Decoder.logical, if_neg hw, h]

end

/-! ### `DEC_START` and `DEC_ABORT` -/

/-- Settles O33: `DEC_START` has no guard, and leaves nothing of the registers (`Decoder.arm`). -/
theorem decodeStartEffect : Obligations.DecodeStartEffect := by
  unfold Obligations.DecodeStartEffect
  exact fun _ => rfl

/-- Settles O40. -/
theorem decodeAbortEffect : Obligations.DecodeAbortEffect := by
  unfold Obligations.DecodeAbortEffect
  exact fun s => ⟨fun hp => exec_decAbort_of_active ((DecPhase.active_iff _).mpr hp),
    fun hp => exec_decAbort_of_not_active ((DecPhase.not_active_iff _).mpr hp)⟩

/-! ### `DEC_BYTE` -/

/-- Settles O34. -/
theorem decodeByteOutsideActivePhases : Obligations.DecodeByteOutsideActivePhases := by
  unfold Obligations.DecodeByteOutsideActivePhases
  exact fun s w hp => exec_decByte_of_not_active ((DecPhase.not_active_iff _).mpr hp) w

/-- Settles O35: in MARK0 the byte is stored unexamined, and MARK1 compares the pair. -/
theorem decodeByteMarkerPhases : Obligations.DecodeByteMarkerPhases := by
  unfold Obligations.DecodeByteMarkerPhases
  refine fun s w he => ⟨fun hp => ?_, fun hp h0 h1 => ?_, fun hp hm => ?_⟩ <;>
    rw [exec_decByte_of_wireByte (by simp [hp, DecPhase.active]) he (Decoder.storeIndex_lt_of_ne_body (by simp [hp])),
      State.setDec]
  · simp only [Decoder.wireByte, hp]
  · simp only [Decoder.wireByte, hp, if_pos (And.intro h0 h1)]
  · simp only [Decoder.wireByte, hp, if_neg hm, Decoder.fail_of_no_esc he]

/-- Settles O36: a length byte writes its half of `DEC_LEN` (`Decoder.data`), and settles unless it waits for its
filler. -/
theorem decodeByteLengthPhases : Obligations.DecodeByteLengthPhases := by
  unfold Obligations.DecodeByteLengthPhases
  intro s w he
  have hstore : s.dec.phase = .lenHi ∨ s.dec.phase = .lenLo → ∀ i, s.dec.storeIndex = some i → i < Config.bufMax :=
    fun hp => Decoder.storeIndex_lt_of_ne_body (by rcases hp with hp | hp <;> simp [hp])
  refine ⟨fun hp hw => ?_, fun hp hw => ?_, fun hp hw => ?_, fun hp hw hlen => ?_, fun hp hw hlen => ?_⟩
  · exact exec_decByte_markerHi (.inl hp) he (hstore (.inl hp)) hw (Decoder.data_of_lenHi hp w)
  · exact exec_decByte_of_ne_markerHi (.inl hp) he (hstore (.inl hp)) hw (Decoder.settle_data_of_lenHi hp w)
  · exact exec_decByte_markerHi (.inr (.inl hp)) he (hstore (.inr hp)) hw (Decoder.data_of_lenLo hp w)
  · exact exec_decByte_of_ne_markerHi (.inr (.inl hp)) he (hstore (.inr hp)) hw
      ((Decoder.settle_data_of_zero_length hp hlen).trans (Decoder.fail_of_no_esc (d := { s.dec with len := 0 }) he _))
  · exact exec_decByte_of_ne_markerHi (.inr (.inl hp)) he (hstore (.inr hp)) hw (Decoder.settle_data_of_length hp hlen)

/-- Settles O37: a buffer byte goes to `DEC_BUF` (`Decoder.data_of_buffer_byte`), the checksum byte does not, and only
the checksum byte, once its filler has come, ends the frame. -/
theorem decodeByteBodyPhase : Obligations.DecodeByteBodyPhase := by
  unfold Obligations.DecodeByteBodyPhase
  intro s w hp he
  have hlast : s.dec.rem = 1 → ∀ i, s.dec.storeIndex = some i → i < Config.bufMax := fun hr i h => by
    obtain ⟨-, -, hr2, -⟩ := Decoder.storeIndex_eq_some h
    simp [hr] at hr2
  refine ⟨fun hr ho => ?_, fun hr hw => ?_, fun hr hw ha => ?_, fun hr hw ha => ?_⟩
  · have hi : ∀ i, s.dec.storeIndex = some i → i < Config.bufMax := fun i h => by
      obtain ⟨-, -, -, rfl⟩ := Decoder.storeIndex_eq_some h
      exact ho
    by_cases hw : w = s.params.markerHi
    · rw [decide_eq_true hw]
      exact exec_decByte_markerHi (.inr (.inr hp)) he hi hw (Decoder.data_of_buffer_byte hp he hr w)
    · rw [decide_eq_false hw, ← he]
      exact exec_decByte_of_ne_markerHi (.inr (.inr hp)) he hi hw (Decoder.settle_data_of_buffer_byte hp he hr w)
  · exact exec_decByte_markerHi (.inr (.inr hp)) he (hlast hr) hw (Decoder.data_of_checksum hp hr w)
  · subst ha
    exact exec_decByte_of_ne_markerHi (.inr (.inr hp)) he (hlast hr) hw
      (Decoder.settle_data_of_checksum hp hr (accumulate_self _))
  · have hsum : accumulate s.dec.acc w ≠ 0 := fun h => ha (BitVec.xor_eq_zero_iff.mp h)
    exact exec_decByte_of_ne_markerHi (.inr (.inr hp)) he (hlast hr) hw
      ((Decoder.settle_data_of_bad_checksum hp hr hsum).trans
        (Decoder.fail_of_no_esc (d := { s.dec with acc := accumulate s.dec.acc w, rem := 0 }) he _))

/-- Settles O38: a filler other than 0x00 fails before any `Settle`, and 0x00 leaves the data alone and settles. -/
theorem decodeByteFiller : Obligations.DecodeByteFiller := by
  unfold Obligations.DecodeByteFiller
  intro s w he
  refine ⟨fun hp hw => ?_, fun hp => ?_, fun hp hl => ?_, fun hp hl => ?_, fun hp hr => ?_, fun hp hr ha => ?_,
    fun hp hr ha => ?_⟩
  · rw [exec_decByte_of_esc (DecPhase.Unescapes.active hp) he, Decoder.filler_of_ne hw]
    rfl
  · exact exec_decByte_escFill (.inl hp) he (Decoder.settle_of_lenHi hp)
  · exact exec_decByte_escFill (.inr (.inl hp)) he (Decoder.settle_of_zero_length hp hl)
  · exact exec_decByte_escFill (.inr (.inl hp)) he (Decoder.settle_of_length hp hl)
  · exact exec_decByte_escFill (.inr (.inr hp)) he (Decoder.settle_of_owed hp hr)
  · exact exec_decByte_escFill (.inr (.inr hp)) he (Decoder.settle_of_checksum hp hr ha)
  · exact exec_decByte_escFill (.inr (.inr hp)) he (Decoder.settle_of_bad_checksum hp hr ha)

/-- Settles O60: the bytes that BODY collects while more are owed (`State.Inv.execAll_escAll_body`). -/
theorem bodyLastsForTheWholeLength : Obligations.BodyLastsForTheWholeLength := by
  unfold Obligations.BodyLastsForTheWholeLength
  intro s bs hs hp he hbs
  obtain ⟨d, hd, hbody⟩ := hs.execAll_escAll_body hp he hbs
  exact ⟨s.setDec d, hd, hbody⟩

end Sys2Proof.Machine
end

section
/-! PROOF. The decoder commands decode what `Decode` decodes (spec/42_decoder.md R170): the decoder follows each reader
of `Decode` through its input, and other commands among its own do not disturb it. -/

namespace Sys2Proof.Machine

/-! ### A decoder that follows a reading -/

/-- What a decoder holds when it has been fed the whole input of a reading that answers `r` (R170). -/
def Decoder.Shows (d : Decoder) (r : Reading (List Byte)) : Prop :=
  match r with
  | .got buf _ => d.phase = .done ∧ d.result = buf
  | .failed e _ => if e = .timeout then d.phase.active = true else d.phase = .error ∧ d.err = some e

/-- Fed the wire bytes `ws`, the decoder comes to show `r`. -/
def State.Follows (s : State) (ws : List Byte) (r : Reading (List Byte)) : Prop :=
  ∃ t, execAll (ws.map .decByte) s = .next t ∧ t.dec.Shows r

theorem Decoder.shows_timeout {d : Decoder} {rest : List Byte} :
    d.Shows (.failed .timeout rest) ↔ d.phase.active = true := by
  simp [Shows]

theorem Decoder.shows_got {d : Decoder} {buf rest : List Byte} :
    d.Shows (.got buf rest) ↔ d.phase = .done ∧ d.result = buf := Iff.rfl

theorem Decoder.shows_failed {d : Decoder} {e : DecodeError} (he : e ≠ .timeout) {rest : List Byte} :
    d.Shows (.failed e rest) ↔ d.phase = .error ∧ d.err = some e := by
  simp [Shows, he]

/-- `Fail` shows the error it is entered with. -/
theorem Decoder.fail_shows (d : Decoder) {e : DecodeError} (he : e ≠ .timeout) (rest : List Byte) :
    (d.fail e).Shows (.failed e rest) := by
  simp [Shows, he]

theorem Decoder.Shows.not_active {d : Decoder} {r : List Byte → Reading (List Byte)} (hr : Reading.Final r)
    {rest : List Byte} (h : d.Shows (r rest)) : d.phase.active = false := by
  rw [DecPhase.not_active_iff]
  rcases hr with ⟨buf, rfl⟩ | ⟨e, he, rfl⟩
  · exact .inr (.inl h.1)
  · rw [Shows, if_neg he] at h
    exact .inr (.inr h.1)

theorem State.Follows.of_execAll {s s' : State} {us ws : List Byte} {r : Reading (List Byte)}
    (hus : execAll (us.map .decByte) s = .next s') (h : s'.Follows ws r) : s.Follows (us ++ ws) r := by
  obtain ⟨t, ht, hshows⟩ := h
  exact ⟨t, by rw [List.map_append, execAll_append, hus, andThen_next, ht], hshows⟩

/-- Once the decoder is not active, further bytes only set SEQERR (R178). -/
theorem execAll_decByte_of_not_active {s : State} (ha : s.dec.phase.active = false) (ws : List Byte) :
    execAll (ws.map .decByte) s = .next (if ws = [] then s else s.raiseSeqerr) := by
  induction ws generalizing s with
  | nil => rfl
  | cons w ws ih =>
    rw [List.map_cons, execAll_cons, exec_decByte_of_not_active ha, andThen_next, ih (s := s.raiseSeqerr) ha,
      if_neg (List.cons_ne_nil w ws), show s.raiseSeqerr.raiseSeqerr = s.raiseSeqerr from rfl, ite_self]

theorem State.Follows.of_not_active {s : State} {r : Reading (List Byte)} (ha : s.dec.phase.active = false)
    (h : s.dec.Shows r) (ws : List Byte) : s.Follows ws r := by
  refine ⟨_, execAll_decByte_of_not_active ha ws, ?_⟩
  split <;> exact h

/-- A decoder in ERROR stays there. -/
theorem State.follows_fail (s : State) (d : Decoder) (e : DecodeError) (he : e ≠ .timeout) (ws rest : List Byte) :
    (s.setDec (d.fail e)).Follows ws (.failed e rest) :=
  .of_not_active rfl (d.fail_shows he rest) ws

/-! ### Reader by reader -/

theorem Reading.andThen_assoc {α β γ : Type} (r : Reading α) (f : α → List Byte → Reading β)
    (g : β → List Byte → Reading γ) :
    (r.andThen f).andThen g = r.andThen fun a ws => (f a ws).andThen g := by
  cases r <;> rfl

/-- The decoder follows one unescaping read, and settles on the byte that it returns (R175 to R177). -/
theorem State.Inv.follows_readU {s : State} (hs : s.Inv) (hp : s.dec.phase.Unescapes) (he : s.dec.esc = false)
    {k : Byte → List Byte → Reading (List Byte)}
    (hk : ∀ b rest, (s.setDec (s.dec.data b).settle).Inv → (s.setDec (s.dec.data b).settle).Follows rest (k b rest))
    (ws : List Byte) : s.Follows ws ((readU s.params ws).andThen k) := by
  have hi : ∀ i, s.dec.storeIndex = some i → i < Config.bufMax := fun _ => Decoder.storeIndex_lt hs.dec
  have hmarker := exec_decByte_markerHi hp he hi rfl rfl
  have hgot : ∀ b rest, readU s.params ws = .got b rest → s.Follows ws ((readU s.params ws).andThen k) := by
    intro b rest h
    rw [h, Reading.andThen_got, readU_eq_got.mp h]
    have hbyte := hs.execAll_esc hp he b
    exact .of_execAll hbyte (hk b rest (hs.execAll_inv hbyte))
  rcases readU_cases s.params ws with ⟨rfl, h⟩ | ⟨w, rest, -, -, h⟩ | ⟨rfl, h⟩ | ⟨rest, -, h⟩ | ⟨f, rest, rfl, hf, h⟩
  · rw [h]
    exact ⟨s, rfl, Decoder.shows_timeout.mpr hp.active⟩
  · exact hgot w rest h
  · rw [h]
    refine ⟨_, by rw [List.map_singleton, execAll_cons, hmarker]; rfl, Decoder.shows_timeout.mpr ?_⟩
    exact (congrArg DecPhase.active (Decoder.data_phase _ _)).trans hp.active
  · exact hgot _ rest h
  · rw [h]
    have hfail : execAll ([s.params.markerHi, f].map .decByte) s =
        .next (s.setDec (Decoder.fail .badEscape { s.dec.data s.params.markerHi with esc := true })) := by
      rw [List.map_cons, execAll_cons, hmarker, andThen_next, List.map_singleton, execAll_cons,
        exec_decByte_of_esc (by simp [hp.active]) rfl, Decoder.filler_of_ne hf]
      rfl
    exact .of_execAll hfail (s.follows_fail _ .badEscape nofun rest rest)

/-- The decoder in BODY follows the reads of the bytes still owed, and the checksum test after them (R154, R155). -/
theorem State.Inv.follows_body {s : State} (hs : s.Inv) (hp : s.dec.phase = .body) (he : s.dec.esc = false) {len : Half}
    {n : Nat} (hn : s.dec.rem.toNat = n + 1) (hlen : len.toNat = s.dec.result.length + (n + 1))
    (hacc : s.dec.acc = foldXor s.dec.result) (ws : List Byte) :
    s.Follows ws ((readMany s.params (n + 1) ws).andThen fun data ws => verifyData len (s.dec.result ++ data) ws) := by
  induction n generalizing s ws with
  | zero =>
    simp only [readMany, Reading.andThen_assoc, Reading.andThen_got]
    refine hs.follows_readU (.inr (.inr hp)) he (fun b rest _ => ?_) ws
    have hrem : s.dec.rem = 1 := BitVec.eq_of_toNat_eq hn
    rw [verifyData, foldXor_append_singleton, ← hacc]
    by_cases hx : accumulate s.dec.acc b = 0
    · rw [if_neg (not_not_intro hx), Decoder.settle_data_of_checksum hp hrem hx, hlen, Nat.add_sub_cancel,
        List.take_left]
      exact .of_not_active rfl (Decoder.shows_got.mpr ⟨rfl, rfl⟩) rest
    · rw [if_pos hx, Decoder.settle_data_of_bad_checksum hp hrem hx]
      exact s.follows_fail _ .badChecksum nofun rest rest
  | succ n ih =>
    rw [readMany]
    simp only [Reading.andThen_assoc, Reading.andThen_got]
    refine hs.follows_readU (.inr (.inr hp)) he (fun b rest hinv => ?_) ws
    have hr : 2 ≤ s.dec.rem.toNat := by omega
    have hlt : s.dec.outlen.toNat < Config.bufMax := Decoder.storeIndex_lt hs.dec (if_pos ⟨hp, he, hr⟩)
    have hrem : (s.dec.rem - 1).toNat = n + 1 := by bv_omega
    have hresult : Decoder.result { s.dec with
        acc := accumulate s.dec.acc b, buf := s.dec.buf.write s.dec.outlen.toNat b, outlen := s.dec.outlen + 1,
        rem := s.dec.rem - 1 } = s.dec.result ++ [b] := Decoder.result_store hlt b
    rw [Decoder.settle_data_of_buffer_byte hp he hr] at hinv ⊢
    have hlen' : len.toNat = (s.dec.result ++ [b]).length + (n + 1) := by
      rw [List.length_append, List.length_singleton]
      omega
    have hacc' : accumulate s.dec.acc b = foldXor (s.dec.result ++ [b]) := by
      rw [foldXor_append_singleton, hacc]
    have hrest := ih hinv hp he hrem (by rwa [State.setDec_dec, hresult]) (by rwa [State.setDec_dec, hresult]) rest
    simp only [State.setDec_dec, State.setDec_params, hresult, List.append_assoc, List.singleton_append] at hrest
    exact hrest

/-- A BODY just begun owes what the length says (R177). -/
theorem State.Inv.follows_decodeBody {s : State} (hs : s.Inv) (hp : s.dec.phase = .body) (he : s.dec.esc = false)
    {len : Half} (hr : s.dec.rem = len) (ha : s.dec.acc = 0) (ho : s.dec.outlen = 0) (hlen : len ≠ 0) (ws : List Byte) :
    s.Follows ws (decodeBody s.params len ws) := by
  have hpos : len.toNat ≠ 0 := fun h => hlen (BitVec.eq_of_toNat_eq h)
  obtain ⟨n, hn⟩ := Nat.exists_eq_succ_of_ne_zero hpos
  have hresult : s.dec.result = [] := by rw [Decoder.result, ho]; rfl
  have hbody := hs.follows_body hp he (hr ▸ hn) (by simpa [hresult] using hn) (by rw [ha, hresult, foldXor_nil]) ws
  rw [decodeBody, if_neg hlen, hn]
  simpa only [hresult, List.nil_append] using hbody

/-- The decoder follows the read of the second length byte, and of the body it opens (R153, R157). -/
theorem State.Inv.follows_lenLo {s : State} (hs : s.Inv) (hp : s.dec.phase = .lenLo) (he : s.dec.esc = false)
    (ws : List Byte) :
    s.Follows ws ((readU s.params ws).andThen fun lo ws =>
      decodeBody s.params (joinBytes (hiByte s.dec.len) lo) ws) := by
  refine hs.follows_readU (.inr (.inl hp)) he (fun lo rest hs' => ?_) ws
  by_cases hlen : joinBytes (hiByte s.dec.len) lo = 0
  · rw [decodeBody, if_pos hlen, Decoder.settle_data_of_zero_length hp hlen]
    exact s.follows_fail _ .zeroLength nofun rest rest
  · rw [Decoder.settle_data_of_length hp hlen] at hs' ⊢
    exact hs'.follows_decodeBody rfl he rfl rfl rfl hlen rest

/-- The decoder follows the reads of the length and of the body (R152 to R157). -/
theorem State.Inv.follows_decodeLength {s : State} (hs : s.Inv) (hp : s.dec.phase = .lenHi) (he : s.dec.esc = false)
    (ws : List Byte) : s.Follows ws (decodeLength s.params ws) := by
  refine hs.follows_readU (.inl hp) he (fun hi rest hs' => ?_) ws
  rw [Decoder.settle_data_of_lenHi hp] at hs' ⊢
  have hlow := hs'.follows_lenLo rfl he rest
  rw [State.setDec_dec, hiByte_joinBytes] at hlow
  exact hlow

/-- A decoder armed and fed the wire input of a `Decode` shows its outcome (R170). -/
theorem State.Inv.execAll_decodeCommands_shows {s : State} (hs : s.Inv) (ws : List Byte) :
    ∃ t, execAll (decodeCommands ws) s = .next t ∧ t.dec.Shows (decodeFrame s.params ws) := by
  have harm : exec .decStart s = .next (s.setDec s.dec.arm) := rfl
  have hinv := hs.exec_inv harm
  have hfirst : ∀ w, exec (.decByte w) (s.setDec s.dec.arm) =
      .next (s.setDec { s.dec.arm with m0 := w, phase := .mark1 }) :=
    fun w => (decodeByteMarkerPhases (s.setDec s.dec.arm) w rfl).1 rfl
  rw [decodeCommands, execAll_cons, harm, andThen_next]
  show (s.setDec s.dec.arm).Follows ws _
  match ws with
  | [] => exact ⟨_, rfl, Decoder.shows_timeout.mpr rfl⟩
  | [w] => exact ⟨_, by rw [List.map_singleton, execAll_cons, hfirst]; rfl, Decoder.shows_timeout.mpr rfl⟩
  | m0 :: m1 :: ws =>
    obtain ⟨-, hmarker, hother⟩ :=
      decodeByteMarkerPhases (s.setDec { s.dec.arm with m0 := m0, phase := .mark1 }) m1 rfl
    have hpair : ∀ t, exec (.decByte m1) (s.setDec { s.dec.arm with m0 := m0, phase := .mark1 }) = .next t →
        execAll ([m0, m1].map .decByte) (s.setDec s.dec.arm) = .next t := fun t ht => by
      rw [List.map_cons, execAll_cons, hfirst, andThen_next, List.map_singleton, execAll_cons, ht]
      rfl
    by_cases hm : m0 = s.params.markerHi ∧ m1 = s.params.markerLo
    · have hrun := hpair _ (hmarker rfl hm.1 hm.2)
      obtain ⟨rfl, rfl⟩ := hm
      rw [decodeFrame_marker]
      exact .of_execAll hrun ((hinv.execAll_inv hrun).follows_decodeLength rfl rfl ws)
    · rw [decodeFrame_of_ne_marker hm]
      exact .of_execAll (hpair _ (hother rfl hm)) (s.follows_fail _ .badMarker nofun ws ws)

/-- At the end of a reading, and beyond it, the decoder shows its outcome; before, it is active (R158, R170). -/
theorem State.Inv.execAll_decodeCommands_take {s u : State} (hs : s.Inv) {ws rest : List Byte} {j : Nat}
    (hj : j ≤ ws.length) (hu : execAll (decodeCommands (ws.take j)) s = .next u)
    {r : List Byte → Reading (List Byte)} (hr : Reading.Final r) (h : decodeFrame s.params ws = r rest) :
    (j + rest.length < ws.length → u.dec.phase.active = true) ∧
    (ws.length ≤ j + rest.length → ∃ rest', u.dec.Shows (r rest')) ∧
    (ws.length < j + rest.length → u.flags.seqerr = true) := by
  obtain ⟨used, rfl, hend⟩ := decodeFrame_endsAt hr h
  obtain ⟨u', hu', hshows⟩ := hs.execAll_decodeCommands_shows ((used ++ rest).take j)
  cases hu'.symm.trans hu
  rw [List.length_append] at hj ⊢
  refine ⟨fun hlt => ?_, fun hle => ?_, fun hlt => ?_⟩
  · rw [List.take_append_of_le_length (by omega), hend.waits j (by omega)] at hshows
    exact Decoder.shows_timeout.mp hshows
  · rw [List.take_append, List.take_of_length_le (by omega), hend.settled] at hshows
    exact ⟨_, hshows⟩
  · obtain ⟨v, hv, hshows⟩ := hs.execAll_decodeCommands_shows used
    rw [← List.append_nil used, hend.settled] at hshows
    have hmore : rest.take (j - used.length) ≠ [] := by
      rw [Ne, List.take_eq_nil_iff, ← List.length_eq_zero_iff]
      omega
    rw [List.take_append, List.take_of_length_le (by omega), decodeCommands, List.map_append, ← List.cons_append,
      ← decodeCommands, execAll_append, hv, andThen_next, execAll_decByte_of_not_active (hshows.not_active hr),
      if_neg hmore] at hu
    cases hu
    rfl

/-! ### The decoder's commands among others -/

/-- Two states between which a decoder command sees no difference; with `sticky`, a SEQERR set in `u` is set in `s`. -/
structure State.SameDecoder (sticky : Bool) (s u : State) : Prop where
  params : s.params = u.params
  dec : s.dec = u.dec
  seqerr : sticky = true → u.flags.seqerr = true → s.flags.seqerr = true

/-- The commands that touch what `State.SameDecoder` compares: the decoder's, and with `sticky` `CLR_STATUS`. -/
def touchesDecoder (sticky : Bool) (i : Instr) : Bool := i.isDecoderCommand || (sticky && i = .clrStatus)

theorem State.SameDecoder.exec_own {b : Bool} {i : Instr} {s u s' u' : State} (hi : touchesDecoder b i = true)
    (h : s.SameDecoder b u) (hs : exec i s = .next s') (hu : exec i u = .next u') : s'.SameDecoder b u' := by
  by_cases hdec : i.isDecoderCommand = true
  · rcases exec_decoder hdec u.params u.dec with ⟨d, q, heffect⟩ | ⟨f, hfault⟩
    · cases (heffect s h.params h.dec).symm.trans hs
      cases (heffect u rfl rfl).symm.trans hu
      refine ⟨h.params, rfl, fun hb hset => ?_⟩
      simp only [State.decEffect, Bool.or_eq_true] at hset ⊢
      exact hset.imp_left (h.seqerr hb)
    · cases (hfault u rfl rfl).symm.trans hu
  · have hclr : i = .clrStatus := by simp_all [touchesDecoder]
    subst hclr
    cases hs
    cases hu
    exact ⟨h.params, h.dec, fun _ hset => hset⟩

/-- No other command but `RESET` writes the decoder (R45), nor clears a sticky flag (R37). -/
theorem State.SameDecoder.exec_other {b : Bool} {i : Instr} {s u s' : State} (hi : touchesDecoder b i = false)
    (hreset : i ≠ .reset) (h : s.SameDecoder b u) (hs : exec i s = .next s') : s'.SameDecoder b u := by
  obtain ⟨hdec, hclr⟩ : i.isDecoderCommand = false ∧ (b = true → i ≠ .clrStatus) := by
    simpa [touchesDecoder] using hi
  obtain ⟨hparams, -, -⟩ := exec_keeps_host hs
  refine ⟨hparams.trans h.params, Eq.trans ?_ h.dec, fun hb hset => ?_⟩
  · rcases exec_cases_by_half hs with ⟨-, e, out, q, o, rfl⟩ | ⟨hown, -⟩ | ⟨-, x, hx⟩ | ⟨-, rfl⟩ | ⟨-, rfl⟩ | ⟨rfl, -⟩
    · rfl
    · simp [hdec] at hown
    · rw [hx]
    · rfl
    · rfl
    · exact absurd rfl hreset
  · obtain ⟨hsticky, -⟩ := stickyFlagsClearedOnlyByClearOrReset s s' i hs
    exact (hsticky (hclr hb) hreset).1 (h.seqerr hb hset)

/-- Other commands among the decoder's make no difference to the decoder, nor to a SEQERR that no `CLR_STATUS`
clears. -/
theorem State.Inv.execAll_of_filter_decoder {s u : State} (hs : s.Inv) {is : List Instr} (hreset : .reset ∉ is)
    (hu : execAll (is.filter Instr.isDecoderCommand) s = .next u) :
    ∃ t, execAll is s = .next t ∧ t.dec = u.dec ∧
      (.clrStatus ∉ is → u.flags.seqerr = true → t.flags.seqerr = true) := by
  have hfilter : is.filter Instr.isDecoderCommand = is.filter (touchesDecoder (decide (.clrStatus ∉ is))) := by
    refine List.filter_congr fun i hi => ?_
    by_cases hclr : i = .clrStatus
    · subst hclr
      simp [touchesDecoder, hi]
    · simp [touchesDecoder, hclr]
  rw [hfilter] at hu
  obtain ⟨t, ht, hsame⟩ := execAll_of_filter State.SameDecoder.exec_own State.SameDecoder.exec_other hreset hs
    ⟨rfl, rfl, fun _ h => h⟩ hu
  exact ⟨t, ht, hsame.dec, fun hclr => hsame.seqerr (decide_eq_true hclr)⟩

/-- Settles O41: the decoder fed the first `j` bytes shows what `Decode` answers on them, which R158 relates to its
answer on the whole input (`State.Inv.execAll_decodeCommands_take`); and the other commands make no difference. -/
theorem decoderAgreesWithLevelOneDecode : Obligations.DecoderAgreesWithLevelOneDecode := by
  unfold Obligations.DecoderAgreesWithLevelOneDecode
  intro s ws j is hs hj ⟨hown, hreset⟩
  obtain ⟨u, hu, hshows⟩ := hs.execAll_decodeCommands_shows (ws.take j)
  obtain ⟨t, ht, hdec, hseqerr⟩ := hs.execAll_of_filter_decoder hreset (hown ▸ hu)
  have hend : ∀ {r rest}, Reading.Final r → decodeFrame s.params ws = r rest →
      (j + rest.length < ws.length → t.dec.phase.active = true) ∧
      (ws.length ≤ j + rest.length →
        (∃ rest', t.dec.Shows (r rest')) ∧ ∀ w, exec (.decByte w) t = .next t.raiseSeqerr) ∧
      (ws.length < j + rest.length → .clrStatus ∉ is → t.flags.seqerr = true) := fun hr h => by
    obtain ⟨hbefore, hafter, hbeyond⟩ := hs.execAll_decodeCommands_take hj hu hr h
    rw [← hdec] at hbefore hafter
    refine ⟨hbefore, fun hle => ?_, fun hlt hclr => hseqerr hclr (hbeyond hlt)⟩
    obtain ⟨rest', hshows⟩ := hafter hle
    exact ⟨⟨rest', hshows⟩, exec_decByte_of_not_active (hshows.not_active hr)⟩
  refine ⟨t, ht, fun buf rest h => ?_, fun e rest h he => ?_, fun rest h => ?_⟩
  · obtain ⟨hbefore, hafter, hbeyond⟩ := hend (.inl ⟨buf, rfl⟩) h
    refine ⟨hbefore, fun hle => ?_, hbeyond⟩
    obtain ⟨⟨rest', hphase, hresult⟩, hrefused⟩ := hafter hle
    exact ⟨hphase, by rw [← hresult]; simp [Decoder.result], hresult, hrefused⟩
  · obtain ⟨hbefore, hafter, hbeyond⟩ := hend (.inr ⟨e, he, rfl⟩) h
    refine ⟨hbefore, fun hle => ?_, hbeyond⟩
    obtain ⟨⟨rest', hshows⟩, hrefused⟩ := hafter hle
    obtain ⟨hphase, herr⟩ := (Decoder.shows_failed he).mp hshows
    exact ⟨hphase, herr, hrefused⟩
  · rw [decodeFrame_take_of_timeout h, Decoder.shows_timeout, ← hdec] at hshows
    exact ⟨hshows, _, exec_decAbort_of_active hshows, rfl, rfl⟩

end Sys2Proof.Machine
end

section
/-! PROOF. The control and read commands one by one (spec/43_control.md R190 to R195): each read answers what its operand
names (`readReg`, `readBuf`), and `RESET` leaves nothing for STATUS to show. -/

namespace Sys2Proof.Machine

/-! ### The reads -/

/-- Zero extension as the spec's rules write it, and as the statements write it (R66). -/
theorem zext16_eq_setWidth (b : Byte) : zext16 b = b.setWidth 16 :=
  (BitVec.setWidth_eq_append (by decide)).symm

theorem exec_rdReg_of_some {s : State} {r : Byte} {v : Half} (h : readReg s r = some v) :
    exec (.rdReg r) s = .next (s.respond v) := by
  simp only [exec, execRdReg, h, State.respondOrIllegal]

theorem exec_rdReg_of_reserved {r : Byte} (hr : 0x0A ≤ r.toNat) (s : State) :
    exec (.rdReg r) s = .next (s.raiseIllegal.respond 0) := by
  simp only [exec, execRdReg, (readReg_eq_none s r).mpr hr, State.respondOrIllegal]

/-- Settles O23: the ten rows of the register map (`readReg`), and the numbers with no row (`readReg_eq_none`). -/
theorem readRegisterReturnsItsValue : Obligations.ReadRegisterReturnsItsValue := by
  unfold Obligations.ReadRegisterReturnsItsValue
  intro s
  simp only [← zext16_eq_setWidth]
  exact ⟨exec_rdReg_of_some rfl, exec_rdReg_of_some rfl, exec_rdReg_of_some rfl, exec_rdReg_of_some rfl,
    exec_rdReg_of_some rfl, exec_rdReg_of_some rfl, exec_rdReg_of_some rfl, exec_rdReg_of_some rfl,
    exec_rdReg_of_some rfl, exec_rdReg_param s, fun _ hr => exec_rdReg_of_reserved hr s⟩

theorem exec_rdBuf_of_lt {s : State} {i : Half} (ho : i.toNat < s.dec.outlen.toNat) (hi : i.toNat < Config.bufMax) :
    exec (.rdBuf i) s = .next (s.respond (zext16 (s.dec.buf.read i.toNat))) := by
  rcases readBuf_cases s.dec i with ⟨-, -, h⟩ | ⟨hout, -⟩
  · simp only [exec, execRdBuf, h, State.respondOrIllegal]
  · omega

theorem exec_rdBuf_of_out_of_range {s : State} {i : Half}
    (h : s.dec.outlen.toNat ≤ i.toNat ∨ Config.bufMax ≤ i.toNat) :
    exec (.rdBuf i) s = .next (s.raiseIllegal.respond 0) := by
  rcases readBuf_cases s.dec i with ⟨ho, hi, -⟩ | ⟨-, h⟩
  · omega
  · simp only [exec, execRdBuf, h, State.respondOrIllegal]

/-- In IDLE and ERROR no buffer entry is in range (R193). -/
theorem Decoder.Inv.outlen_eq_zero {d : Decoder} (hd : d.Inv) (hp : d.phase = .idle ∨ d.phase = .error) :
    d.outlen = 0 := by
  rcases hp with hp | hp <;> exact hd.outlen (by simp [hp]) (by simp [hp])

/-- Settles O25: the two answers of a buffer read (`readBuf_cases`), the second for every index in IDLE and ERROR. -/
theorem readBufferReturnsItsEntry : Obligations.ReadBufferReturnsItsEntry := by
  unfold Obligations.ReadBufferReturnsItsEntry
  intro s i
  rw [← zext16_eq_setWidth]
  refine ⟨exec_rdBuf_of_lt, exec_rdBuf_of_out_of_range, fun hs hp => exec_rdBuf_of_out_of_range (.inl ?_)⟩
  rw [hs.dec.outlen_eq_zero hp]
  exact Nat.zero_le _

/-! ### `NOP`, `CLR_STATUS` and `RESET` -/

/-- Settles O26: neither command has a guard. -/
theorem nopAndClearStatusEffect : Obligations.NopAndClearStatusEffect := by
  unfold Obligations.NopAndClearStatusEffect
  exact fun _ => ⟨rfl, rfl⟩

/-- Every field of STATUS is 0 at its register's reset value (R23, R38, R240). -/
theorem statusWord_eq_zero_of_reset {s : State} (he : s.enc = Encoder.reset) (hd : s.dec = Decoder.reset)
    (hf : s.flags = Flags.clear) : statusWord s = 0 := by
  rw [statusWord, he, hd, hf]
  decide

/-- Settles O27: `RESET` has no guard, and STATUS is read from the registers it leaves
(`statusWord_eq_zero_of_reset`). -/
theorem resetCommandRestoresResetValues : Obligations.ResetCommandRestoresResetValues := by
  unfold Obligations.ResetCommandRestoresResetValues
  refine fun s => ⟨rfl, _, _, rfl, exec_rdReg_of_some rfl, ?_⟩
  rw [State.respond_rsp, statusWord_eq_zero_of_reset rfl rfl rfl]

end Sys2Proof.Machine
end

section
/-! PROOF. Errors and flags over all commands (spec/60_exceptions.md R210 to R218): the only ways into ERROR and out of
it, the refusals that raise SEQERR, the causes of ILLEGAL, and that one command raises at most one error. -/

namespace Sys2Proof.Machine

/-! ### The ways into ERROR -/

/-- What must hold for a wire byte `w` to fail the decoder `d` with each error, where `x` is the decoder at the moment
of `Fail` (R210). -/
def Decoder.FailCause (p : Params) (w : Byte) (d x : Decoder) : DecodeError → Prop
  | .badMarker => d.phase = .mark1 ∧ ¬(d.m0 = p.markerHi ∧ w = p.markerLo)
  | .badEscape => d.esc = true ∧ w ≠ 0x00 ∧ x = d
  | .zeroLength => d.phase = .lenLo ∧ x.len = 0
  | .badChecksum => d.phase = .body ∧ x.rem = 0 ∧ x.acc ≠ 0x00 ∧ x.len = d.len
  | .timeout => False

/-- `d'` is the decoder `d` failed by the wire byte `w`, with `DEC_M0` kept (R213). -/
def Decoder.FailedBy (p : Params) (w : Byte) (d d' : Decoder) : Prop :=
  ∃ x e, d' = x.fail e ∧ x.m0 = d.m0 ∧ d.FailCause p w x e

/-- What the data effect of a byte, or its filler, leaves for `Settle` to look at. -/
structure Decoder.SameHeader (x d : Decoder) : Prop where
  phase : x.phase = d.phase
  m0 : x.m0 = d.m0
  len : d.phase = .body → x.len = d.len

theorem Decoder.bodyData_sameHeader (w : Byte) (d : Decoder) : (d.bodyData w).SameHeader d := by
  unfold bodyData
  split <;> exact ⟨rfl, rfl, fun _ => rfl⟩

theorem Decoder.len_sameHeader {d : Decoder} (hp : d.phase ≠ .body) (v : Half) : SameHeader { d with len := v } d :=
  ⟨rfl, rfl, fun h => absurd h hp⟩

section

variable {p : Params} {w : Byte} {d d' x : Decoder} (hne : d.phase ≠ .error)
include hne

/-- `Settle` fails at a zero length and at a wrong checksum, and nowhere else (R177). -/
theorem Decoder.SameHeader.settle_failedBy (hx : x.SameHeader d) (h : x.settle.phase = .error) :
    d.FailedBy p w x.settle := by
  rcases x.settle_cases with ⟨-, hs⟩ | ⟨hp, hl, hs⟩ | ⟨-, -, hs⟩ | ⟨-, -, -, hs⟩ | ⟨hp, hr, ha, hs⟩ | ⟨-, -, hs⟩ |
    ⟨-, -, -, hs⟩ <;> rw [hs] at h ⊢
  case inr.inl => exact ⟨x, .zeroLength, rfl, hx.m0, hx.phase ▸ hp, hl⟩
  case inr.inr.inr.inr.inl =>
    have hbody : d.phase = .body := hx.phase ▸ hp
    exact ⟨x, .badChecksum, rfl, hx.m0, hbody, hr, ha, hx.len hbody⟩
  case inr.inr.inr.inr.inr.inl | inr.inr.inr.inr.inr.inr => exact absurd (hx.phase.symm.trans h) hne
  all_goals cases h

/-- A byte that waits for its filler has not failed yet (R175). -/
theorem Decoder.SameHeader.logical_failedBy (hx : x.SameHeader d) (h : (x.logical p w).phase = .error) :
    d.FailedBy p w (x.logical p w) := by
  rcases x.logical_cases p w with ⟨-, hl⟩ | ⟨-, hl⟩ <;> rw [hl] at h ⊢
  · exact absurd (hx.phase.symm.trans h) hne
  · exact hx.settle_failedBy hne h

theorem Decoder.filler_failedBy (he : d.esc = true) (h : (d.filler w).phase = .error) :
    d.FailedBy p w (d.filler w) := by
  rcases Decoder.filler_cases w d with ⟨hw, hf⟩ | ⟨-, hf⟩ <;> rw [hf] at h ⊢
  · exact ⟨d, .badEscape, rfl, rfl, he, hw, rfl⟩
  · have hx : SameHeader { d with esc := false } d := ⟨rfl, rfl, fun _ => rfl⟩
    exact hx.settle_failedBy hne h

theorem Decoder.wireByte_failedBy (h : (d.wireByte p w).phase = .error) : d.FailedBy p w (d.wireByte p w) := by
  rcases d.wireByte_cases p w with ⟨-, hw⟩ | ⟨-, -, -, hw⟩ | ⟨hp, hm, hw⟩ | ⟨hp, hw⟩ | ⟨hp, hw⟩ | ⟨-, hw⟩ | ⟨-, hw⟩ <;>
    rw [hw] at h ⊢
  · cases h
  · cases h
  · exact ⟨d, .badMarker, rfl, rfl, hp, hm⟩
  · exact (len_sameHeader (by simp [hp]) _).logical_failedBy hne h
  · exact (len_sameHeader (by simp [hp]) _).logical_failedBy hne h
  · exact (bodyData_sameHeader w d).logical_failedBy hne h
  · exact absurd h hne

/-- The ways a wire byte takes the decoder into ERROR (R210, R213). -/
theorem Decoder.accept_failedBy (ha : d.accept p w = .ok d') (h : d'.phase = .error) : d.FailedBy p w d' := by
  rcases d.accept_cases p w with ⟨he, hok⟩ | ⟨-, -, hok⟩ | ⟨i, -, -, herr⟩
  · cases hok.symm.trans ha
    exact Decoder.filler_failedBy hne he h
  · cases hok.symm.trans ha
    exact Decoder.wireByte_failedBy hne h
  · cases herr.symm.trans ha

end

/-- Only the decoder's commands and `RESET` write the decoder (R45, R195). -/
theorem exec_keeps_dec {i : Instr} {s t : State} (h : exec i s = .next t) (hi : i.isDecoderCommand = false)
    (hreset : i ≠ .reset) : t.dec = s.dec := by
  rcases exec_cases_by_half h with ⟨-, e, out, q, o, rfl⟩ | ⟨hown, -⟩ | ⟨-, x, hx⟩ | ⟨-, rfl⟩ | ⟨-, rfl⟩ | ⟨rfl, -⟩
  · rfl
  · simp [hi] at hown
  · rw [hx]
  · rfl
  · rfl
  · exact absurd rfl hreset

/-- Settles O43: `DEC_START` and `RESET` lead elsewhere, and the other commands of the decoder fail it by `Fail`, whose
cause for a wire byte is `Decoder.accept_failedBy`. -/
theorem decoderErrorEntry : Obligations.DecoderErrorEntry := by
  unfold Obligations.DecoderErrorEntry
  intro s t i h hs ht
  cases i with
  | decByte w =>
    rcases execDecByte_cases h with ⟨-, rfl⟩ | ⟨-, d, hd, rfl⟩
    · exact absurd ht hs
    · obtain ⟨x, e, rfl, hm0, hcause⟩ := Decoder.accept_failedBy hs hd ht
      refine ⟨rfl, rfl, hm0, rfl, .inr ⟨w, rfl, ?_⟩⟩
      cases e with
      | badMarker => exact .inl ⟨rfl, hcause⟩
      | badEscape =>
        obtain ⟨he, hw, rfl⟩ := hcause
        exact .inr (.inl ⟨rfl, he, hw, rfl, rfl, rfl⟩)
      | zeroLength => exact .inr (.inr (.inl ⟨rfl, hcause⟩))
      | badChecksum => exact .inr (.inr (.inr ⟨rfl, hcause⟩))
      | timeout => exact hcause.elim
  | decAbort =>
    cases ha : s.dec.phase.active
    · cases (exec_decAbort_of_not_active ha).symm.trans h
      exact absurd ht hs
    · cases (exec_decAbort_of_active ha).symm.trans h
      exact ⟨rfl, rfl, rfl, rfl, .inl ⟨rfl, rfl, rfl, rfl, rfl, rfl⟩⟩
  | decStart | reset =>
    cases h
    cases ht
  | nop | encStart | encByte | encAbort | rdReg | rdBuf | clrStatus =>
    exact absurd (exec_keeps_dec h rfl nofun ▸ ht) hs

/-! ### The ways out of ERROR -/

/-- Settles O44: in ERROR the decoder's own commands but `DEC_START` are refused, and of the others only `RESET` writes
the decoder (`exec_keeps_dec`). -/
theorem decoderErrorIsKeptUntilRearmed : Obligations.DecoderErrorIsKeptUntilRearmed := by
  unfold Obligations.DecoderErrorIsKeptUntilRearmed
  intro s t i hp h
  have ha : s.dec.phase.active = false := (DecPhase.not_active_iff _).mpr (.inr (.inr hp))
  cases i with
  | decByte w =>
    cases (exec_decByte_of_not_active ha w).symm.trans h
    simp
  | decAbort =>
    cases (exec_decAbort_of_not_active ha).symm.trans h
    simp
  | decStart =>
    cases h
    simp
  | reset =>
    cases h
    simp [Decoder.reset]
  | nop | encStart | encByte | encAbort | rdReg | rdBuf | clrStatus => simp [exec_keeps_dec h rfl nofun]

/-! ### SEQERR -/

theorem EncPhase.ne_body_iff (ph : EncPhase) : ph ≠ .body ↔ ph = .idle ∨ ph = .done := by
  cases ph <;> simp

/-- Settles O45: each refusal by its own guard; and of everything a command can do (`exec_cases`), the four named cases
are those that raise SEQERR. -/
theorem seqerrExactlyWhenRefused : Obligations.SeqerrExactlyWhenRefused := by
  unfold Obligations.SeqerrExactlyWhenRefused
  intro s i
  refine ⟨?_, fun hok hclear t h => ?_⟩
  · rintro (⟨⟨n, rfl⟩, hp⟩ | ⟨⟨b, rfl⟩, hp⟩ | ⟨⟨w, rfl⟩, hp⟩ | ⟨rfl, hp⟩)
    · exact exec_encStart_of_body hp n
    · exact exec_encByte_of_ne_body ((EncPhase.ne_body_iff _).mpr hp) b
    · exact exec_decByte_of_not_active ((DecPhase.not_active_iff _).mpr hp) w
    · exact exec_decAbort_of_not_active ((DecPhase.not_active_iff _).mpr hp)
  · rcases exec_cases h with ⟨-, rfl⟩ | ⟨n, rfl, ⟨hp, -⟩ | ⟨-, -, rfl⟩ | ⟨-, -, -, rfl⟩ | ⟨-, -, rfl⟩⟩ |
      ⟨b, rfl, ⟨hp, -⟩ | ⟨-, -, rfl⟩ | ⟨-, -, rfl⟩⟩ | ⟨-, rfl⟩ | ⟨-, rfl⟩ | ⟨w, rfl, ⟨hp, -⟩ | ⟨-, d, -, rfl⟩⟩ |
      ⟨rfl, ⟨hp, -⟩ | ⟨-, rfl⟩⟩ | ⟨r, -, ⟨v, -, rfl⟩ | ⟨-, rfl⟩⟩ | ⟨k, -, ⟨v, -, rfl⟩ | ⟨-, rfl⟩⟩ | ⟨-, rfl⟩ | ⟨-, rfl⟩
    case inr.inl.inl => exact absurd (.inl ⟨⟨n, rfl⟩, hp⟩) hok -- `ENC_START` in BODY
    case inr.inr.inl.inl => -- `ENC_BYTE` outside BODY
      exact absurd (.inr (.inl ⟨⟨b, rfl⟩, (EncPhase.ne_body_iff _).mp hp⟩)) hok
    case inr.inr.inr.inr.inr.inl.inl => -- `DEC_BYTE` outside the active phases
      exact absurd (.inr (.inr (.inl ⟨⟨w, rfl⟩, (DecPhase.not_active_iff _).mp hp⟩))) hok
    case inr.inr.inr.inr.inr.inr.inl.inl => -- `DEC_ABORT` outside the active phases
      exact absurd (.inr (.inr (.inr ⟨rfl, (DecPhase.not_active_iff _).mp hp⟩))) hok
    case inr.inr.inr.inr.inr.inr.inr.inr.inr.inl | inr.inr.inr.inr.inr.inr.inr.inr.inr.inr => rfl
    all_goals exact hclear

/-! ### ILLEGAL -/

/-- Everything the acceptance of a word that goes on can do (R94, R95). -/
theorem acceptWord_cases {w : CmdWord} {s t : State} (h : acceptWord w s = .next t) :
    (∃ r, decode w = .error r ∧ t = s.raiseIllegal) ∨ ∃ i, decode w = .ok i ∧ exec i s = .next t := by
  cases hd : decode w with
  | error r =>
    cases (acceptWord_of_error hd s).symm.trans h
    exact .inl ⟨r, rfl, rfl⟩
  | ok i =>
    rw [acceptWord, hd] at h
    exact .inr ⟨i, rfl, h⟩

/-- All the entries in use are entries of `DEC_BUF` (R36): the last byte counted by `DEC_LEN` is the checksum. -/
theorem Decoder.Inv.outlen_le {d : Decoder} (hd : d.Inv) : d.outlen.toNat ≤ Config.bufMax := by
  have hlen : d.len.toNat - 1 ≤ Config.bufMax := by
    simp only [Config.bufMax]
    omega
  by_cases hb : d.phase = .body
  · by_cases hr : d.rem = 0
    · exact (hd.bodyLast hb hr).2 ▸ hlen
    · have hrem : 1 ≤ d.rem.toNat := by bv_omega
      have := hd.bodyCount hb hrem
      omega
  · by_cases hp : d.phase = .done
    · obtain ⟨-, -, hout, -⟩ := hd.done hp
      exact hout ▸ hlen
    · rw [hd.outlen hb hp]
      exact Nat.zero_le _

/-- The commands that raise ILLEGAL, and the value they append (R192, R193). -/
theorem State.Inv.exec_illegal_iff {s t : State} {i : Instr} (hs : s.Inv) (hclear : s.flags.illegal = false)
    (h : exec i s = .next t) : t.flags.illegal = true ↔
      (∃ r : Byte, i = .rdReg r ∧ 0x0A ≤ r.toNat) ∨ ∃ k : Half, i = .rdBuf k ∧ s.dec.outlen.toNat ≤ k.toNat := by
  constructor
  · intro hset
    obtain ⟨-, -, -, hread⟩ := stickyFlagsClearedOnlyByClearOrReset s t i h
    rcases (hread hclear hset).1 with ⟨r, rfl⟩ | ⟨k, rfl⟩
    · refine .inl ⟨r, rfl, (readReg_eq_none s r).mp (Option.eq_none_iff_forall_ne_some.mpr fun v hv => ?_)⟩
      cases (exec_rdReg_of_some hv).symm.trans h
      simp [hclear] at hset
    · refine .inr ⟨k, rfl, Nat.le_of_not_lt fun hlt => ?_⟩
      cases (exec_rdBuf_of_lt hlt (hlt.trans_le hs.dec.outlen_le)).symm.trans h
      simp [hclear] at hset
  · rintro (⟨r, rfl, hr⟩ | ⟨k, rfl, hk⟩)
    · cases (exec_rdReg_of_reserved hr s).symm.trans h
      rfl
    · cases (exec_rdBuf_of_out_of_range (.inl hk)).symm.trans h
      rfl

/-- Settles O46: an illegal word takes the port's error branch; for a command the causes are
`State.Inv.exec_illegal_iff`, and what it appends is in `stickyFlagsClearedOnlyByClearOrReset`. -/
theorem illegalExactlyThreeCauses : Obligations.IllegalExactlyThreeCauses := by
  unfold Obligations.IllegalExactlyThreeCauses
  intro s t w hs hclear h
  rcases acceptWord_cases h with ⟨r, hd, rfl⟩ | ⟨i, hd, hi⟩
  · simp [hd, State.raiseIllegal]
  · refine ⟨by simpa [hd] using hs.exec_illegal_iff hclear hi, by simp [hd], fun hset _ => ?_⟩
    obtain ⟨-, -, -, hread⟩ := stickyFlagsClearedOnlyByClearOrReset s t i hi
    rw [(hread hclear hset).2]

/-! ### The order of the checks -/

/-- A command that leaves the flags or the decoder as they were raises at most one error (R215). -/
theorem exec_raises_at_most_one {i : Instr} {s t : State} (hf : s.flags = Flags.clear) (hp : s.dec.phase ≠ .error)
    (h : exec i s = .next t) :
    [t.flags.seqerr, t.flags.illegal, t.flags.oversize, decide (t.dec.phase = .error)].count true ≤ 1 := by
  have hkept : ∀ b : Bool, [false, false, false, b].count true ≤ 1 := by decide
  rcases exec_flags_cases h with ht | rfl | ⟨-, rfl⟩ | ⟨-, rfl⟩ | rfl | rfl
  · rw [ht, hf]
    exact hkept _
  · simp [hf, hp, Flags.clear]
  · simp [hf, hp, Flags.clear]
  · simp [hf, hp, Flags.clear]
  · cases h
    exact hkept _
  · cases h
    exact hkept _

/-- Settles O48: decode comes before the command (`acceptWord_cases`), the phase before the operand, and a filler other
than 0x00 before anything the byte it belongs to could do. -/
theorem errorPriority : Obligations.ErrorPriority := by
  unfold Obligations.ErrorPriority
  intro s t w hf hp h
  rcases acceptWord_cases h with ⟨r, hd, rfl⟩ | ⟨i, hd, hi⟩
  · simp [hd, hf, hp]
  · refine ⟨exec_raises_at_most_one hf hp hi, by simp [hd], fun hw hb => ?_, fun hw hb => ?_, fun b hw he ht => ?_⟩ <;>
      cases hd.symm.trans hw
    · cases (exec_encStart_of_body hb 0xFFFF).symm.trans hi
      simp [hf]
    · cases (exec_encStart_of_oversize hb).symm.trans hi
      simp [hf]
    · refine or_iff_not_imp_right.mpr fun hb => ?_
      rcases execDecByte_cases hi with ⟨-, rfl⟩ | ⟨ha, -⟩
      · exact absurd ht hp
      · cases (exec_decByte_of_esc ha he b).symm.trans hi
        rw [State.setDec_dec, Decoder.filler_of_ne hb, Decoder.fail_err]

end Sys2Proof.Machine
end

section
/-! PROOF. Reset values and hazards (spec/70_reset_and_hazards.md R240, R250): power-on reset and `RESET` leave the same
registers, and a command reads the sticky flags only to answer a read of STATUS. -/

namespace Sys2Proof.Machine

/-! ### The reset state -/

/-- Power-on reset of any instance, the OPEN one included, and `RESET` put both halves and the flags in their reset
values (R195, R240). -/
theorem registers_eq_reset {s : State}
    (h : s = State.reset ∨ (∃ p, s = State.resetOf p) ∨ ∃ u, exec .reset u = .next s) :
    s.enc = Encoder.reset ∧ s.dec = Decoder.reset ∧ s.flags = Flags.clear := by
  rcases h with rfl | ⟨p, rfl⟩ | ⟨u, hu⟩
  · exact ⟨rfl, rfl, rfl⟩
  · exact ⟨rfl, rfl, rfl⟩
  · cases hu
    exact ⟨rfl, rfl, rfl⟩

/-- Settles O28: every register is read off the reset values (`registers_eq_reset`), and STATUS is composed of them
(`statusWord_eq_zero_of_reset`). -/
theorem resetStateHasResetValues : Obligations.ResetStateHasResetValues := by
  unfold Obligations.ResetStateHasResetValues
  intro s h
  obtain ⟨he, hd, hf⟩ := registers_eq_reset h
  have hstatus := statusWord_eq_zero_of_reset he hd hf
  simp [he, hd, hf, hstatus, Encoder.reset, Decoder.reset, Flags.clear]

/-! ### The sticky flags stop no command -/

/-- Replace the sticky flags. -/
def State.setFlags (f : Flags) (s : State) : State := { s with flags := f }

/-- STATUS is the only register that shows the flags (R38, R42). -/
theorem readReg_setFlags {r : Byte} (hr : r ≠ 0x00) (f : Flags) (s : State) :
    readReg (s.setFlags f) r = readReg s r := by
  unfold readReg
  split
  · exact absurd rfl hr
  all_goals rfl

/-- Two answers given under different flags differ at most in the value and the flags: a read that is refused still
appends (R192, R193). -/
theorem State.respondOrIllegal_setFlags (v v' : Option Half) (f : Flags) (s : State) :
    { (s.setFlags f).respondOrIllegal v' with
      flags := (s.respondOrIllegal v).flags, rsp := (s.respondOrIllegal v).rsp } = s.respondOrIllegal v := by
  cases v <;> cases v' <;> rfl

theorem State.respondOrIllegal_setFlags_rsp (v : Option Half) (f : Flags) (s : State) :
    ((s.setFlags f).respondOrIllegal v).rsp = (s.respondOrIllegal v).rsp := by
  cases v <;> rfl

/-- Settles O49: what a command of either half does is settled by that half and the parameters (`exec_encoder`,
`exec_decoder`), a read answers whatever it names, and of all it can name only STATUS depends on the flags
(`readReg_setFlags`). -/
theorem stickyFlagsDoNotBlock : Obligations.StickyFlagsDoNotBlock := by
  unfold Obligations.StickyFlagsDoNotBlock
  intro s t i f h
  by_cases he : i.isEncoderCommand = true
  · obtain ⟨e, out, q, o, henc⟩ := exec_encoder he s.params s.enc
    cases (henc s rfl rfl).symm.trans h
    exact ⟨_, henc (s.setFlags f) rfl rfl, rfl, fun _ => rfl⟩
  by_cases hd : i.isDecoderCommand = true
  · rcases exec_decoder hd s.params s.dec with ⟨d, q, hdec⟩ | ⟨r, hdec⟩ <;> cases (hdec s rfl rfl).symm.trans h
    exact ⟨_, hdec (s.setFlags f) rfl rfl, rfl, fun _ => rfl⟩
  cases i with
  | rdReg r =>
    cases h
    refine ⟨_, rfl, s.respondOrIllegal_setFlags _ _ f, fun hr => ?_⟩
    change ((s.setFlags f).respondOrIllegal (readReg (s.setFlags f) r)).rsp = _
    rw [readReg_setFlags (mt (congrArg Instr.rdReg) hr), State.respondOrIllegal_setFlags_rsp]
  | rdBuf k =>
    cases h
    exact ⟨_, rfl, s.respondOrIllegal_setFlags _ _ f, fun _ => s.respondOrIllegal_setFlags_rsp _ f⟩
  | nop | clrStatus | reset =>
    cases h
    exact ⟨_, rfl, rfl, fun _ => rfl⟩
  | encStart | encByte | encAbort => exact absurd rfl he
  | decStart | decByte | decAbort => exact absurd rfl hd

end Sys2Proof.Machine
end
